-- ==== Sys2Proof/Word.lean ====
section
/-! DEFINITION. The word and byte types of the block (00_scope.md R12, R15). -/

namespace Sys2Proof

/-- A block register: `REG_WIDTH = 32` bits (00_scope.md R12). -/
abbrev Word := BitVec 32

/-- A byte of memory or of a stream (00_scope.md R15). -/
abbrev Byte := BitVec 8

/-- `2^AW`, the number of byte addresses, with `AW = 32` (00_scope.md R12, 20_memory.md R60). -/
def addressLimit : Nat := 4294967296

end Sys2Proof
end

