-- ==== Sys2Proof/Syntax.lean ====
section
/-! DEFINITION. The commands of the block, one constructor per row of spec/opcode_table.json, and the moves of its host. -/

namespace Sys2Proof

/-- The nine legal commands (30_encoding.md R85). A command word has no operand: the operands are the block's registers
and, for SUGGEST, the CLS field that tells the three apart (30_encoding.md R87). -/
inductive Instr where
  /-- RLE.ENC, 41_rle.md R121. -/
  | rleEnc
  /-- LZ.ENC, 42_lz77.md R147. -/
  | lzEnc
  /-- AUTO.ENC, 43_selector.md R179. -/
  | autoEnc
  /-- RLE.DEC, 41_rle.md R125. -/
  | rleDec
  /-- LZ.DEC, 42_lz77.md R157. -/
  | lzDec
  /-- CLASSIFY, 43_selector.md R176. -/
  | classify
  /-- SUGGEST.TEXT, 43_selector.md R178. -/
  | suggestText
  /-- SUGGEST.BINARY, 43_selector.md R178. -/
  | suggestBinary
  /-- SUGGEST.MIXED, 43_selector.md R178. -/
  | suggestMixed
  deriving DecidableEq, Repr

/-- The assembler's spelling of a command (30_encoding.md R88). -/
def Instr.assembly : Instr → String
  | .rleEnc => "rle.enc"
  | .lzEnc => "lz.enc"
  | .autoEnc => "auto.enc"
  | .rleDec => "rle.dec"
  | .lzDec => "lz.dec"
  | .classify => "classify"
  | .suggestText => "suggest text"
  | .suggestBinary => "suggest binary"
  | .suggestMixed => "suggest mixed"

/-- The algorithm selector (00_scope.md R16, R18). -/
inductive Alg where
  | rle
  | lz
  | auto
  deriving DecidableEq, Repr

/-- The classification of a sample (00_scope.md R16, R18). -/
inductive Class where
  | text
  | binary
  | mixed
  deriving DecidableEq, Repr

/-- The registers at the offsets of the window (10_state.md R22); `reserved` stands for the offsets 0x28 to 0x3C (R39). -/
inductive Reg where
  | caps
  | cmd
  | status
  | srcAddr
  | srcLen
  | dstAddr
  | dstCap
  | outLen
  | result
  | sample
  | reserved
  deriving DecidableEq, Repr

/-- A host access to the register window: an address of the host's map and a width in bytes (10_state.md R40). -/
structure RegAccess where
  addr  : Nat
  width : Nat
  deriving DecidableEq, Repr

/-- One move of the block's surroundings, or one turn of the engine (00_scope.md R5). -/
inductive HostMove where
  /-- `wr REG, v` (30_encoding.md R88). -/
  | write (a : RegAccess) (v : Word)
  /-- `rd REG` (30_encoding.md R88). -/
  | read (a : RegAccess)
  /-- A host store of one byte to ordinary memory (30_encoding.md R88); a store of any other bus master too (20_memory.md R74). -/
  | store (addr : Word) (v : Byte)
  /-- A host load of one byte of ordinary memory. -/
  | load (addr : Word)
  /-- The block's reset (70_reset_and_hazards.md R230). -/
  | reset
  /-- The engine's turn: it takes its step here if it has one (40_dispatch.md R101). -/
  | engine
  /-- `wait`, the host's polling loop (30_encoding.md R89). -/
  | wait
  deriving DecidableEq, Repr

end Sys2Proof
end

