-- ==== Sys2Proof/WellFormed.lean ====
section
/-! DEFINITION. Which commands a build has, and which register accesses the host may make. -/

namespace Sys2Proof

/-- Whether a command belongs to the selector, and so needs `HAS_CLASSIFIER = 1` (30_encoding.md R85, 43_selector.md R180).
AUTO.ENC does not: it is legal in every build. -/
def Instr.needsSelector : Instr → Bool
  | .classify | .suggestText | .suggestBinary | .suggestMixed => true
  | .rleEnc | .lzEnc | .autoEnc | .rleDec | .lzDec => false

/-- A command is legal in a build (`clsPresent` is `HAS_CLASSIFIER`) unless it needs a selector that is absent (R180). -/
def Instr.wellFormed (clsPresent : Bool) (i : Instr) : Bool :=
  clsPresent || !i.needsSelector

/-- The access falls in the window of 0x40 bytes at `REG_BASE` (10_state.md R22). -/
def RegAccess.inWindow (base : Nat) (a : RegAccess) : Bool :=
  decide (base ≤ a.addr) && decide (a.addr < base + 0x40)

/-- The access is an aligned 32-bit one (10_state.md R40). -/
def RegAccess.supported (base : Nat) (a : RegAccess) : Bool :=
  decide (a.width = 4) && decide ((a.addr - base) % 4 = 0)

/-- A register access the host may make: in the window, 32 bits wide and aligned (10_state.md R22, R40). -/
def RegAccess.wellFormed (base : Nat) (a : RegAccess) : Bool :=
  a.inWindow base && a.supported base

end Sys2Proof
end

