-- ==== Sys2Proof/Decode.lean ====
section
/-! DEFINITION. The command decoder, total on 32-bit words and rejecting by name, and the encoder
(30_encoding.md R80 to R86, 40_dispatch.md R102). -/

namespace Sys2Proof

/-- Why a word is not a command (60_exceptions.md R202). Every reason gives the one error code ILLEGAL_CMD. -/
inductive Reject where
  /-- RSVD ≠ 0. -/
  | reservedBits
  /-- OP is 0x0 or 0x5 to 0xF. -/
  | reservedOp
  /-- ALG is reserved for this OP, is Auto with DECOMPRESS, or is nonzero where it must be 0. -/
  | illegalAlg
  /-- CLS is reserved, or is nonzero where it must be 0. -/
  | illegalCls
  /-- CLASSIFY or SUGGEST in a build with `HAS_CLASSIFIER = 0`. -/
  | noSelector
  deriving DecidableEq, Repr

/-- OP, bits 3:0 (30_encoding.md R80). -/
def opField (w : Word) : BitVec 4 := w.extractLsb' 0 4

/-- ALG, bits 5:4 (30_encoding.md R80). -/
def algField (w : Word) : BitVec 2 := w.extractLsb' 4 2

/-- CLS, bits 7:6 (30_encoding.md R80). -/
def clsField (w : Word) : BitVec 2 := w.extractLsb' 6 2

/-- RSVD, bits 31:8 (30_encoding.md R80). -/
def rsvdField (w : Word) : BitVec 24 := w.extractLsb' 8 24

/-- OP = COMPRESS: the ALG field selects RLE.ENC, LZ.ENC or AUTO.ENC (30_encoding.md R82). -/
def decodeCompress (alg cls : BitVec 2) : Except Reject Instr :=
  if cls ≠ 0#2 then .error .illegalCls
  else if alg = 0#2 then .ok .rleEnc
  else if alg = 1#2 then .ok .lzEnc
  else if alg = 2#2 then .ok .autoEnc
  else .error .illegalAlg

/-- OP = DECOMPRESS: Auto is illegal (30_encoding.md R82). -/
def decodeDecompress (alg cls : BitVec 2) : Except Reject Instr :=
  if cls ≠ 0#2 then .error .illegalCls
  else if alg = 0#2 then .ok .rleDec
  else if alg = 1#2 then .ok .lzDec
  else .error .illegalAlg

/-- OP = CLASSIFY: ALG and CLS must be 0 (30_encoding.md R84). -/
def decodeClassify (alg cls : BitVec 2) : Except Reject Instr :=
  if alg ≠ 0#2 then .error .illegalAlg
  else if cls ≠ 0#2 then .error .illegalCls
  else .ok .classify

/-- OP = SUGGEST: the CLS field selects the class (30_encoding.md R83). -/
def decodeSuggest (alg cls : BitVec 2) : Except Reject Instr :=
  if alg ≠ 0#2 then .error .illegalAlg
  else if cls = 0#2 then .ok .suggestText
  else if cls = 1#2 then .ok .suggestBinary
  else if cls = 2#2 then .ok .suggestMixed
  else .error .illegalCls

/-- The command map of 30_encoding.md R85, as `decode` of 40_dispatch.md R102 reads it, before the build's gate. -/
def decode (w : Word) : Except Reject Instr :=
  if rsvdField w ≠ 0#24 then .error .reservedBits
  else if opField w = 1#4 then decodeCompress (algField w) (clsField w)
  else if opField w = 2#4 then decodeDecompress (algField w) (clsField w)
  else if opField w = 3#4 then decodeClassify (algField w) (clsField w)
  else if opField w = 4#4 then decodeSuggest (algField w) (clsField w)
  else .error .reservedOp

/-- `decode` of 40_dispatch.md R102 whole, with the `HAS_CLASSIFIER` gate. -/
def decodeFor (clsPresent : Bool) (w : Word) : Except Reject Instr :=
  match decode w with
  | .error r => .error r
  | .ok i => if i.wellFormed clsPresent then .ok i else .error .noSelector

/-- A command word from its fields, `RSVD = 0` (30_encoding.md R80). -/
def commandWord (op : BitVec 4) (alg cls : BitVec 2) : Word := 0#24 ++ cls ++ alg ++ op

/-- The word of a command, from the OP, ALG and CLS columns of 30_encoding.md R85. -/
def encode : Instr → Word
  | .rleEnc => commandWord 1 0 0
  | .lzEnc => commandWord 1 1 0
  | .autoEnc => commandWord 1 2 0
  | .rleDec => commandWord 2 0 0
  | .lzDec => commandWord 2 1 0
  | .classify => commandWord 3 0 0
  | .suggestText => commandWord 4 0 0
  | .suggestBinary => commandWord 4 0 1
  | .suggestMixed => commandWord 4 0 2

/-- The command an opcode-table word of `nbits` bits stands for: the bits above `nbits` are 0, and a word that does not
fit the 32 bits of CMD is none. -/
def decodeTableWord (nbits w : Nat) : Option Instr :=
  if w % 2 ^ nbits < addressLimit then
    match decode (BitVec.ofNat 32 (w % 2 ^ nbits)) with
    | .ok i => some i
    | .error _ => none
  else none

end Sys2Proof
end

