-- ==== Sys2Proof/Config.lean ====
section
/-! DEFINITION. The free values: constants with no body, so that nothing can be proved of what they are.
The parameters the spec gives a value are in Machine/Params.lean; those it leaves OPEN are data in State. -/

namespace Sys2Proof.Config

/-- What a host read of OUT_LEN, RESULT or SAMPLE returns while BUSY = 1: any value (10_state.md R46).
Applied to the draw counter of State, so that equal counters give equal values: DEDUCED, safe for one run, unsafe for a claim that
compares two (log entries 8 and 22). -/
opaque busyRead : Nat → Word

/-- What CMD_LATCH holds after a reset move: any value (10_state.md R41, 70_reset_and_hazards.md R230).
Applied to the draw counter of State. DEDUCED, safe (log entry 10). -/
opaque resetLatch : Nat → Word

/-- What the byte at an address of the destination range holds after a reset while busy: any value
(70_reset_and_hazards.md R231). Applied to the draw counter of State and the address. DEDUCED, safe (log entry 9). -/
opaque resetByte : Nat → Nat → Byte

end Sys2Proof.Config
end

