-- ==== Sys2Proof/Machine/Params.lean ====
section
/-! DEFINITION. The parameters of the block whose value the spec gives (00_scope.md R6 to R12; log entry 16). -/

namespace Sys2Proof.Machine

/-- `RLE_MAX_RUN` (00_scope.md R6). -/
def rleMaxRun : Nat := 255

/-- `WINDOW_SIZE` (00_scope.md R7). -/
def windowSize : Nat := 4096

/-- `LOOKAHEAD` (00_scope.md R8). -/
def lookahead : Nat := 15

/-- `MIN_MATCH` (00_scope.md R9): a match is taken when its length is greater than 2. -/
def minMatch : Nat := 3

/-- `SAMPLE_CAP` (00_scope.md R10). -/
def sampleCap : Nat := 1024

/-- `LZ_FILL`, the fourth byte of an emitted back-reference (00_scope.md R12, 42_lz77.md R145). -/
def lzFill : Byte := 0x00#8

/-- `EMPTY_CLASS` (00_scope.md R12, 43_selector.md R174). -/
def emptyClass : Class := .binary

/-- Membership in `TEXT_SET` (00_scope.md R12, 43_selector.md R170). -/
def isText (b : Byte) : Bool :=
  b == 0x09#8 || b == 0x0A#8 || b == 0x0C#8 || b == 0x0D#8 || (decide (0x20 ≤ b.toNat) && decide (b.toNat ≤ 0x7E))

/-- The text threshold 0.95, strict, in integers (43_selector.md R173). -/
def aboveTextThreshold (t m : Nat) : Bool := decide (19 * m < 20 * t)

/-- The binary threshold 0.05, strict, in integers (43_selector.md R173). -/
def belowBinaryThreshold (t m : Nat) : Bool := decide (20 * t < m)

end Sys2Proof.Machine
end

