-- ==== Sys2Proof/Machine/State.lean ====
section
/-! DEFINITION. The state of the block as plain data, its reset value, and the reasons a step can stop. -/

namespace Sys2Proof.Machine

/-- The byte memory (20_memory.md R60): the bytes that differ from what an unlisted address reads as,
at strictly rising addresses (`Memory.wf`, Machine/Ops.lean). -/
abbrev Memory := List Host.Cell

/-- `n` consecutive byte addresses from `base`. -/
structure Region where
  base : Nat
  n    : Nat
  deriving DecidableEq, Repr

/-- The OPEN parameters of the platform (00_scope.md R12). No step changes them. -/
structure Platform where
  /-- `REG_BASE`, an address of the host's map (10_state.md R22). -/
  regBase : Nat
  /-- The byte addresses with `MEM_ADMITS = false` (20_memory.md R61): a finite list of regions, since there are `2^32` addresses. -/
  holes   : List Region
  deriving DecidableEq, Repr

/-- The source and the destination range of a command (40_dispatch.md R103). -/
structure Ranges where
  src : Region
  dst : Region
  deriving DecidableEq, Repr

/-- The codes of STATUS.ERRCODE (60_exceptions.md R200). -/
inductive ErrCode where
  | none
  | illegalCmd
  | range
  | overlap
  | corruptStream
  | dstOverflow
  deriving DecidableEq, Repr

/-- What the last host read returned. -/
inductive Reply where
  /-- A register read, 32 bits. -/
  | reg (v : Word)
  /-- A load of a byte of memory. -/
  | byte (v : Byte)
  deriving DecidableEq, Repr

/-- Everything the spec gives the block (10_state.md, INVENTORY.md's State), then the model's own fields. -/
structure State where
  /-- `HAS_CLASSIFIER`, CAPS.CLS_PRESENT (00_scope.md R13, 10_state.md R23). No step changes it. -/
  clsPresent : Bool
  /-- The OPEN platform parameters (00_scope.md R12). No step changes them. -/
  platform   : Platform
  /-- CMD_LATCH (10_state.md R41). -/
  cmdLatch   : Word
  /-- STATUS (10_state.md R25); the engine's phase is its BUSY bit (R41). -/
  status     : Word
  /-- SRC_ADDR (10_state.md R32). -/
  srcAddr    : Word
  /-- SRC_LEN (10_state.md R33). -/
  srcLen     : Word
  /-- DST_ADDR (10_state.md R34). -/
  dstAddr    : Word
  /-- DST_CAP (10_state.md R35). -/
  dstCap     : Word
  /-- OUT_LEN (10_state.md R36). -/
  outLen     : Word
  /-- RESULT (10_state.md R37). -/
  result     : Word
  /-- SAMPLE (10_state.md R38). -/
  sample     : Word
  /-- The byte memory (20_memory.md R60). -/
  mem        : Memory
  /-- The model's own: buffers handed to the engine and not yet got back (70_reset_and_hazards.md R242; log entry 11). -/
  claims     : List Ranges
  /-- The model's own: pending moves of the host and turns of the engine, oldest first (log entry 7). -/
  inputs     : List HostMove
  /-- The model's own: what the last host read returned (log entry 17). -/
  reply      : Option Reply
  /-- The model's own: the counter free values are drawn with (log entries 8 to 10). -/
  draws      : Nat
  deriving DecidableEq, Repr

/-- Why the machine has no step. -/
inductive Fault where
  /-- Raised by the engine's step when the command would read or write a byte with `MEM_ADMITS = false`: the engine is
  stuck with BUSY = 1 (20_memory.md R61). The command has no effect. Safe: nothing about its result can be proved. -/
  | engineStuck
  deriving DecidableEq, Repr

/-- Moves the model gives no step. -/
inductive Refusal where
  /-- An instruction with no meaning yet, by its mnemonic; raised by no arm of this model. Safe. -/
  | notModelled (mnemonic : String)
  /-- Raised by a host register access that is not an aligned 32-bit one (10_state.md R40). Safe: the run stops. -/
  | unsupportedAccess
  /-- Raised by a host register access outside the block's window (10_state.md R22): no access to this block. Safe. -/
  | outsideWindow
  /-- Raised by a host load or store of a buffer byte that is the engine's (20_memory.md R71, 70_reset_and_hazards.md R242).
  Safe for runs the model gives; it says nothing of a host that breaks the duty. -/
  | bufferRace
  /-- Raised by a host load or store of a byte with `MEM_ADMITS = false`: the platform's concern (20_memory.md R69, R76). Safe. -/
  | hostNotBacked
  /-- Raised by the composition of several blocks when the buffers of two busy ones clash (20_memory.md R74). Safe. -/
  | instanceRace
  /-- Raised by the composition of several blocks for an index with no block. Safe. -/
  | noSuchInstance
  deriving DecidableEq, Repr

/-- The block right after reset (10_state.md R45, 70_reset_and_hazards.md R230). What the spec gives no value is a
DESIGN CHOICE: memory (log entry 1), CMD_LATCH (2), HAS_CLASSIFIER (3), MEM_ADMITS (4), REG_BASE (5), the model's own
fields (17). -/
def State.reset : State where
  clsPresent := true
  platform := { regBase := 0, holes := [] }
  cmdLatch := 0#32
  status := 0#32
  srcAddr := 0#32
  srcLen := 0#32
  dstAddr := 0#32
  dstCap := 0#32
  outLen := 0#32
  result := 0#32
  sample := 0#32
  mem := []
  claims := []
  inputs := []
  reply := none
  draws := 0

end Sys2Proof.Machine
end

