-- ==== Sys2Proof/Machine/Flags.lean ====
section
/-! DEFINITION. The status, result, sample and capability words, and the fields software reads in them
(10_state.md R23, R25 to R31, R37, R38; 30_encoding.md R95). -/

namespace Sys2Proof

/-- The value of RESULT.CLASS and of the CLS field (30_encoding.md R95). -/
def Class.bits : Class → BitVec 2
  | .text => 0
  | .binary => 1
  | .mixed => 2

/-- The value of RESULT.ALG and of the ALG field (30_encoding.md R95). -/
def Alg.bits : Alg → BitVec 2
  | .rle => 0
  | .lz => 1
  | .auto => 2

end Sys2Proof

namespace Sys2Proof.Machine

/-- The value of STATUS.ERRCODE (60_exceptions.md R200). -/
def ErrCode.bits : ErrCode → BitVec 4
  | .none => 0
  | .illegalCmd => 1
  | .range => 2
  | .overlap => 3
  | .corruptStream => 4
  | .dstOverflow => 5

/-! ## STATUS (10_state.md R25) -/

/-- STATUS.BUSY, bit 0 (10_state.md R26). -/
def statusBusy (w : Word) : Bool := w.getLsbD 0

/-- STATUS.DONE, bit 1 (10_state.md R27). -/
def statusDone (w : Word) : Bool := w.getLsbD 1

/-- STATUS.ERR, bit 2 (10_state.md R28). -/
def statusErr (w : Word) : Bool := w.getLsbD 2

/-- STATUS.TRUNC, bit 3 (10_state.md R29). -/
def statusTrunc (w : Word) : Bool := w.getLsbD 3

/-- STATUS.ERRCODE, bits 11:8 (10_state.md R30). -/
def statusErrCode (w : Word) : BitVec 4 := w.extractLsb' 8 4

/-- STATUS when a CMD write is accepted: BUSY = 1, all else 0 (40_dispatch.md R100). -/
def acceptedStatus : Word := 0x00000001#32

/-- STATUS at completion: ERRCODE, TRUNC, ERR, DONE = 1, BUSY = 0 (40_dispatch.md R108). -/
def completionStatus (code : ErrCode) (trunc : Bool) : Word :=
  0#20 ++ code.bits ++ 0#4 ++ BitVec.ofBool (trunc && decide (code = .none)) ++ BitVec.ofBool (decide (code ≠ .none))
    ++ 1#1 ++ 0#1

/-- The engine's phase (10_state.md R41). -/
def State.busy (s : State) : Bool := statusBusy s.status

/-! ## RESULT (10_state.md R37) and SAMPLE (R38) -/

/-- RESULT of CLASSIFY: CLASS_VALID and CLASS (43_selector.md R176). -/
def classResult (c : Class) : Word := 0#29 ++ 1#1 ++ c.bits

/-- RESULT of SUGGEST, and of AUTO.ENC without the selector: ALG_VALID and ALG (43_selector.md R178, R179). -/
def algResult (a : Alg) : Word := 0#25 ++ 1#1 ++ a.bits ++ 0#4

/-- RESULT of AUTO.ENC with the selector: ALG_VALID, ALG, 0, CLASS_VALID, CLASS (43_selector.md R179). -/
def autoResult (a : Alg) (c : Class) : Word := 0#25 ++ 1#1 ++ a.bits ++ 0#1 ++ 1#1 ++ c.bits

/-- SAMPLE: TEXTCOUNT above SAMPLED, 11 bits each (43_selector.md R176). -/
def sampleWord (t m : Nat) : Word := 0#5 ++ BitVec.ofNat 11 t ++ 0#5 ++ BitVec.ofNat 11 m

/-- RESULT.CLASS, bits 1:0. -/
def resultClass (w : Word) : BitVec 2 := w.extractLsb' 0 2

/-- RESULT.CLASS_VALID, bit 2. -/
def resultClassValid (w : Word) : Bool := w.getLsbD 2

/-- RESULT.ALG, bits 5:4. -/
def resultAlg (w : Word) : BitVec 2 := w.extractLsb' 4 2

/-- RESULT.ALG_VALID, bit 6. -/
def resultAlgValid (w : Word) : Bool := w.getLsbD 6

/-- SAMPLE.SAMPLED, bits 10:0. -/
def sampleSampled (w : Word) : BitVec 11 := w.extractLsb' 0 11

/-- SAMPLE.TEXTCOUNT, bits 26:16. -/
def sampleTextCount (w : Word) : BitVec 11 := w.extractLsb' 16 11

/-! ## CAPS (10_state.md R23) -/

/-- CAPS: WINDOW_SIZE, LOOKAHEAD, seven zeros and CLS_PRESENT (10_state.md R23). -/
def capsWord (clsPresent : Bool) : Word :=
  BitVec.ofNat 16 windowSize ++ BitVec.ofNat 8 lookahead ++ 0#7 ++ BitVec.ofBool clsPresent

end Sys2Proof.Machine
end

