-- ==== Sys2Proof/Machine/Ops.lean ====
section
/-! DEFINITION. The operations every command shares: the byte memory, the source read, the output primitive `emit`,
and the one way a command ends, `complete`, with `raiseError` for an error (40_dispatch.md R106 to R108, 60_exceptions.md R201). -/

namespace Sys2Proof.Machine

/-! ## The byte memory -/

/-- What an address with no entry reads as (DESIGN CHOICE, log entry 1). -/
def Memory.unlisted : Byte := 0x00#8

/-- `MemRead(a, 1)` on the byte memory (20_memory.md R62). -/
def Memory.read : Memory → Nat → Byte
  | [], _ => Memory.unlisted
  | (b, v) :: m, a => if b = a then v else Memory.read m a

/-- The memory with no entry for `a`. -/
def Memory.erase (m : Memory) (a : Nat) : Memory := m.filter fun c => decide (c.1 ≠ a)

/-- An entry for `a` put before the first higher address. -/
def Memory.insert : Memory → Nat → Byte → Memory
  | [], a, v => [(a, v)]
  | (b, x) :: m, a, v => if a < b then (a, v) :: (b, x) :: m else (b, x) :: Memory.insert m a v

/-- `MemWrite(a, 1, v)` on the byte memory (20_memory.md R62): the old entry goes, and a new one is listed unless `v` is what
an unlisted address reads as. -/
def Memory.write (m : Memory) (a : Nat) (v : Byte) : Memory :=
  if v = Memory.unlisted then m.erase a else (m.erase a).insert a v

/-- Bytes written at consecutive addresses from `a`. -/
def Memory.writeList : Memory → Nat → List Byte → Memory
  | m, _, [] => m
  | m, a, v :: vs => Memory.writeList (m.write a v) (a + 1) vs

/-- The bytes at `n` consecutive addresses from `a`. -/
def Memory.readList (m : Memory) : Nat → Nat → List Byte
  | _, 0 => []
  | a, n + 1 => m.read a :: Memory.readList m (a + 1) n

/-- The canonical form from address `lo` up: addresses strictly rising and below `2^32`, no entry an unlisted address's value. -/
def Memory.wfFrom : Nat → Memory → Bool
  | _, [] => true
  | lo, (a, v) :: m => decide (lo ≤ a) && decide (a < addressLimit) && decide (v ≠ Memory.unlisted) && Memory.wfFrom (a + 1) m

/-- The canonical form of the byte memory. -/
def Memory.wf (m : Memory) : Bool := Memory.wfFrom 0 m

/-! ## Regions and admitted addresses -/

/-- Byte address `a` is in the region. -/
def Region.has (r : Region) (a : Nat) : Bool := decide (r.base ≤ a) && decide (a < r.base + r.n)

/-- Two regions are non-empty and intersect (40_dispatch.md R105). -/
def Region.meets (r q : Region) : Bool :=
  decide (0 < r.n) && decide (0 < q.n) && decide (r.base < q.base + q.n) && decide (q.base < r.base + r.n)

/-- `MEM_ADMITS(a)` (20_memory.md R61). -/
def Platform.admits (p : Platform) (a : Nat) : Bool := p.holes.all fun r => !r.has a

/-! ## The source read -/

/-- `read_source(lo, n)` (40_dispatch.md R106), or `none` when a byte of it is at an address with `MEM_ADMITS = false`. -/
def readSource (p : Platform) (m : Memory) : Nat → Nat → Option (List Byte)
  | _, 0 => some []
  | lo, n + 1 =>
    if p.admits lo then
      match readSource p m (lo + 1) n with
      | some bs => some (m.read lo :: bs)
      | none => none
    else none

/-! ## The output primitive -/

/-- How far a command's output went: `mem` is memory and `len` the length of `out` where it ended. -/
inductive Emission where
  /-- Every byte was written. -/
  | done (mem : Memory) (len : Nat)
  /-- `emit` raised DST_OVERFLOW. -/
  | overflow (mem : Memory) (len : Nat)
  /-- A byte was due at an address with `MEM_ADMITS = false`. -/
  | stuck
  deriving DecidableEq, Repr

/-- `emit(v)` with `k = len(out)` (40_dispatch.md R107): the capacity is checked before the write. -/
def emit (p : Platform) (dst cap : Nat) (m : Memory) (k : Nat) (v : Byte) : Emission :=
  if cap ≤ k then .overflow m k
  else if p.admits (dst + k) then .done (m.write (dst + k) v) (k + 1)
  else .stuck

/-- `emit` of each byte in turn, stopping where one stops. -/
def emitAll (p : Platform) (dst cap : Nat) : Memory → Nat → List Byte → Emission
  | m, k, [] => .done m k
  | m, k, v :: vs =>
    match emit p dst cap m k v with
    | .done m' k' => emitAll p dst cap m' k' vs
    | .overflow m' k' => .overflow m' k'
    | .stuck => .stuck

/-! ## Completion -/

/-- `complete(code, out, trunc, result, sample)` (40_dispatch.md R108), with `len` for `len(out)`. -/
def complete (code : ErrCode) (len : Nat) (trunc : Bool) (result sample : Word) (s : State) : State :=
  { s with
    outLen := BitVec.ofNat 32 len
    result := result
    sample := sample
    status := completionStatus code trunc }

/-- `raise Error(code)` (00_scope.md R16, 60_exceptions.md R201): `complete` with `trunc` false. -/
def raiseError (code : ErrCode) (len : Nat) (result sample : Word) (s : State) : State :=
  complete code len false result sample s

/-- An error raised before anything was read or written: ILLEGAL_CMD, RANGE or OVERLAP (40_dispatch.md R109). -/
def raiseEarly (code : ErrCode) (s : State) : State := raiseError code 0 0#32 0#32 s

/-! ## The command sequence -/

/-- What a command's function computes from its input, were the capacity unbounded (`F(in)` of 40_dispatch.md R107):
the output, `none` or CORRUPT_STREAM, and the `trunc`, `result` and `sample` it sets. -/
structure Effect where
  full   : List Byte
  code   : ErrCode
  trunc  : Bool
  result : Word
  sample : Word
  deriving DecidableEq, Repr

/-- The range check (40_dispatch.md R104), without wrap. -/
def rangeFails (r : Ranges) : Bool :=
  decide (addressLimit < r.src.base + r.src.n) || decide (addressLimit < r.dst.base + r.dst.n)

/-- The overlap check (40_dispatch.md R105). -/
def overlapFails (r : Ranges) : Bool := r.src.meets r.dst

/-- The end of a command whose function gave `e` and whose output went as far as `o` says: completion, or the stuck engine. -/
def finish (e : Effect) (o : Emission) (s : State) : Host.Outcome State Fault Refusal :=
  match o with
  | .stuck => .fault .engineStuck
  | .overflow m k => .next (raiseError .dstOverflow k e.result e.sample { s with mem := m })
  | .done m k => .next (complete e.code k e.trunc e.result e.sample { s with mem := m })

/-- `execute` after decode (40_dispatch.md R109): the checks in order, the source read, the command's function, its output
through `emit`, and completion. -/
def runCommand (r : Ranges) (f : List Byte → Effect) (s : State) : Host.Outcome State Fault Refusal :=
  if rangeFails r then .next (raiseEarly .range s)
  else if overlapFails r then .next (raiseEarly .overlap s)
  else
    match readSource s.platform s.mem r.src.base r.src.n with
    | none => .fault .engineStuck
    | some inp => finish (f inp) (emitAll s.platform r.dst.base r.dst.n s.mem 0 (f inp).full) s

/-- The gate of the selector's commands (40_dispatch.md R102, 43_selector.md R180): ILLEGAL_CMD in a build without it. -/
def withSelector (s : State) (body : Host.Outcome State Fault Refusal) : Host.Outcome State Fault Refusal :=
  if s.clsPresent then body else .next (raiseEarly .illegalCmd s)

end Sys2Proof.Machine
end

