-- ==== Sys2Proof/Machine/Operands.lean ====
section
/-! DEFINITION. The operands of each command: the ranges it takes from the operand registers
(30_encoding.md R87, 40_dispatch.md R103). -/

namespace Sys2Proof.Machine

/-- The empty region. -/
def noRegion : Region := { base := 0, n := 0 }

/-- The source buffer (SRC_ADDR, SRC_LEN). -/
def sourceRegion (s : State) : Region := { base := s.srcAddr.toNat, n := s.srcLen.toNat }

/-- The sample CLASSIFY reads: the first `min(SRC_LEN, 1024)` bytes of the source (40_dispatch.md R103, 43_selector.md R171). -/
def sampleRegion (s : State) : Region := { base := s.srcAddr.toNat, n := min s.srcLen.toNat sampleCap }

/-- The destination buffer (DST_ADDR, DST_CAP). -/
def destinationRegion (s : State) : Region := { base := s.dstAddr.toNat, n := s.dstCap.toNat }

/-- The ranges of the compress and decompress commands. -/
def bufferRanges (s : State) : Ranges := { src := sourceRegion s, dst := destinationRegion s }

/-- The ranges of CLASSIFY. -/
def classifyRanges (s : State) : Ranges := { src := sampleRegion s, dst := noRegion }

/-- The ranges of SUGGEST, and of a word that is no command. -/
def noRanges : Ranges := { src := noRegion, dst := noRegion }

/-- `ranges(c)` (40_dispatch.md R103). -/
def commandRanges (s : State) : Instr → Ranges
  | .rleEnc => bufferRanges s
  | .lzEnc => bufferRanges s
  | .autoEnc => bufferRanges s
  | .rleDec => bufferRanges s
  | .lzDec => bufferRanges s
  | .classify => classifyRanges s
  | .suggestText => noRanges
  | .suggestBinary => noRanges
  | .suggestMixed => noRanges

/-- The ranges of a command word; an illegal word touches no memory (40_dispatch.md R102). -/
def wordRanges (s : State) (w : Word) : Ranges :=
  match decodeFor s.clsPresent w with
  | .ok i => commandRanges s i
  | .error _ => noRanges

end Sys2Proof.Machine
end

