-- ==== Sys2Proof/Machine/Lz77.lean ====
section
/-! DEFINITION. The LZ77 codec: LZ.ENC and LZ.DEC (42_lz77.md). -/

namespace Sys2Proof.Machine

/-! ## The encoder -/

/-- The loop of `match_len` with `m` bytes matched and at most `left` more to try (42_lz77.md R142). -/
def extendMatch (inp : List Byte) (pos i : Nat) : Nat → Nat → Nat
  | 0, m => m
  | left + 1, m =>
    if pos + m < inp.length ∧ i + m < pos ∧ inp[i + m]? = inp[pos + m]? then extendMatch inp pos i left (m + 1)
    else m

/-- `match_len(in, pos, i)` (42_lz77.md R142). -/
def matchLen (inp : List Byte) (pos i : Nat) : Nat := extendMatch inp pos i lookahead 0

/-- `best_len` and `best_off` (42_lz77.md R143). -/
structure Match where
  len : Nat
  off : Nat
  deriving DecidableEq, Repr

/-- One candidate of `best_match`: it replaces the best only if strictly longer (42_lz77.md R143). -/
def considerCandidate (inp : List Byte) (pos : Nat) (best : Match) (i : Nat) : Match :=
  if best.len < matchLen inp pos i then { len := matchLen inp pos i, off := pos - i } else best

/-- The candidate positions `max(0, pos - W)` to `pos - 1`, ascending (42_lz77.md R141). -/
def candidates (pos : Nat) : List Nat := List.range' (pos - windowSize) (pos - (pos - windowSize))

/-- `best_match(in, pos)` (42_lz77.md R143). -/
def bestMatch (inp : List Byte) (pos : Nat) : Match :=
  (candidates pos).foldl (considerCandidate inp pos) { len := 0, off := 0 }

/-- `emit_backref(off, len)` (42_lz77.md R145): the offset big-endian, the length, the fill byte. -/
def backrefToken (off len : Nat) : List Byte :=
  [BitVec.ofNat 8 (off / 256), BitVec.ofNat 8 off, BitVec.ofNat 8 len, lzFill]

/-- `emit_literal(v)` (42_lz77.md R145). -/
def literalToken (v : Byte) : List Byte := [0x00#8, 0x00#8, 0x00#8, v]

/-- The loop of `lz_encode` from `pos`, for at most `fuel` tokens (42_lz77.md R146). -/
def lzEncodeFrom (inp : List Byte) : Nat → Nat → List Byte
  | 0, _ => []
  | fuel + 1, pos =>
    match inp[pos]? with
    | none => []
    | some v =>
      if minMatch ≤ (bestMatch inp pos).len then
        backrefToken (bestMatch inp pos).off (bestMatch inp pos).len ++ lzEncodeFrom inp fuel (pos + (bestMatch inp pos).len)
      else literalToken v ++ lzEncodeFrom inp fuel (pos + 1)

/-- The output of `lz_encode(in)` (42_lz77.md R146); each token advances `pos`, so `len(in)` tokens are enough. -/
def lzEncode (inp : List Byte) : List Byte := lzEncodeFrom inp inp.length 0

/-! ## The decoder -/

/-- The copy of a back-reference: `left` more bytes, the next from index `start + j` of the output as it stands, a byte at a
time; an index at or past the output is skipped (42_lz77.md R154, R155). -/
def copyBytes (start : Nat) : Nat → Nat → List Byte → List Byte
  | 0, _, out => out
  | left + 1, j, out =>
    match out[start + j]? with
    | some b => copyBytes start left (j + 1) (out ++ [b])
    | none => copyBytes start left (j + 1) out

/-- The offset of a token, big-endian (30_encoding.md R91). -/
def tokenOffset (hi lo : Byte) : Nat := hi.toNat * 256 + lo.toNat

/-- What `lz_decode` has done: its output, and whether it stopped with CORRUPT_STREAM. -/
structure Decoded where
  out     : List Byte
  corrupt : Bool
  deriving DecidableEq, Repr

/-- `lz_decode` from a token boundary with output `out` so far (42_lz77.md R150). -/
def lzDecodeFrom (out : List Byte) : List Byte → Decoded
  | hi :: lo :: len :: lit :: rest =>
    if tokenOffset hi lo = 0 ∧ len.toNat = 0 then lzDecodeFrom (out ++ [lit]) rest
    else if out.length < tokenOffset hi lo then { out := out, corrupt := true }
    else lzDecodeFrom (copyBytes (out.length - tokenOffset hi lo) len.toNat 0 out) rest
  | _ => { out := out, corrupt := false }

/-- `lz_decode(in)` (42_lz77.md R150). -/
def lzDecode (inp : List Byte) : Decoded := lzDecodeFrom [] inp

/-- The `trunc` that `lz_decode(in)` returns (42_lz77.md R150). -/
def lzTrunc (inp : List Byte) : Bool := decide (inp.length % 4 ≠ 0)

/-! ## The commands -/

/-- What LZ.ENC computes (42_lz77.md R147). -/
def lzEncEffect (inp : List Byte) : Effect :=
  { full := lzEncode inp, code := .none, trunc := false, result := 0#32, sample := 0#32 }

/-- What LZ.DEC computes (42_lz77.md R157). -/
def lzDecEffect (inp : List Byte) : Effect :=
  { full := (lzDecode inp).out
    code := if (lzDecode inp).corrupt then .corruptStream else .none
    trunc := lzTrunc inp
    result := 0#32
    sample := 0#32 }

/-- LZ.ENC (42_lz77.md R147). -/
def execLzEnc (s : State) : Host.Outcome State Fault Refusal :=
  runCommand (commandRanges s .lzEnc) lzEncEffect s

/-- LZ.DEC (42_lz77.md R157). -/
def execLzDec (s : State) : Host.Outcome State Fault Refusal :=
  runCommand (commandRanges s .lzDec) lzDecEffect s

end Sys2Proof.Machine
end

