-- ==== Sys2Proof/Machine/Rle.lean ====
section
/-! DEFINITION. The RLE codec: RLE.ENC and RLE.DEC (41_rle.md). -/

namespace Sys2Proof.Machine

/-- One RLE token: the count byte, then the value byte (30_encoding.md R90). -/
def rleToken (run : Nat) (v : Byte) : List Byte := [BitVec.ofNat 8 run, v]

/-- `rle_encode` inside a run: `run` bytes of value `v` have been counted and `rest` is `in[pos + run ..]`. The run goes on
while the next byte equals `v` and `run < 255`; else its token is emitted and the next byte starts a run (41_rle.md R120). -/
def rleEncodeRun (v : Byte) (run : Nat) : List Byte → List Byte
  | [] => rleToken run v
  | x :: rest =>
    if x = v ∧ run < rleMaxRun then rleEncodeRun v (run + 1) rest
    else rleToken run v ++ rleEncodeRun x 1 rest

/-- The output of `rle_encode(in)` (41_rle.md R120). -/
def rleEncode : List Byte → List Byte
  | [] => []
  | v :: rest => rleEncodeRun v 1 rest

/-- The output of `rle_decode(in)`: whole tokens in order, a dangling byte dropped (41_rle.md R124). -/
def rleDecode : List Byte → List Byte
  | c :: v :: rest => List.replicate c.toNat v ++ rleDecode rest
  | _ => []

/-- The `trunc` that `rle_decode(in)` returns (41_rle.md R124). -/
def rleTrunc (inp : List Byte) : Bool := decide (inp.length % 2 = 1)

/-- What RLE.ENC computes (41_rle.md R121). -/
def rleEncEffect (inp : List Byte) : Effect :=
  { full := rleEncode inp, code := .none, trunc := false, result := 0#32, sample := 0#32 }

/-- What RLE.DEC computes (41_rle.md R125). -/
def rleDecEffect (inp : List Byte) : Effect :=
  { full := rleDecode inp, code := .none, trunc := rleTrunc inp, result := 0#32, sample := 0#32 }

/-- RLE.ENC (41_rle.md R121). -/
def execRleEnc (s : State) : Host.Outcome State Fault Refusal :=
  runCommand (commandRanges s .rleEnc) rleEncEffect s

/-- RLE.DEC (41_rle.md R125). -/
def execRleDec (s : State) : Host.Outcome State Fault Refusal :=
  runCommand (commandRanges s .rleDec) rleDecEffect s

end Sys2Proof.Machine
end

