-- ==== Sys2Proof/Machine/Selector.lean ====
section
/-! DEFINITION. The algorithm selector: CLASSIFY, SUGGEST.TEXT, SUGGEST.BINARY, SUGGEST.MIXED and AUTO.ENC (43_selector.md). -/

namespace Sys2Proof.Machine

/-- The sample: the first `min(len(in), 1024)` bytes (43_selector.md R171). -/
def sampleOf (inp : List Byte) : List Byte := inp.take sampleCap

/-- `m`, the number of bytes sampled (43_selector.md R172). -/
def sampledCount (inp : List Byte) : Nat := (sampleOf inp).length

/-- `t`, the number of sampled bytes in TEXT_SET (43_selector.md R172). -/
def textCount (inp : List Byte) : Nat := (sampleOf inp).countP isText

/-- The classification from the counts (43_selector.md R173, R174). -/
def classOf (t m : Nat) : Class :=
  if m = 0 then emptyClass
  else if aboveTextThreshold t m then .text
  else if belowBinaryThreshold t m then .binary
  else .mixed

/-- The class that `classify(in)` returns (43_selector.md R175). -/
def classify (inp : List Byte) : Class := classOf (textCount inp) (sampledCount inp)

/-- `suggest` (43_selector.md R177). -/
def suggest : Class → Alg
  | .text => .rle
  | .binary => .lz
  | .mixed => .lz

/-- What CLASSIFY computes (43_selector.md R176). -/
def classifyEffect (inp : List Byte) : Effect :=
  { full := []
    code := .none
    trunc := false
    result := classResult (classify inp)
    sample := sampleWord (textCount inp) (sampledCount inp) }

/-- What SUGGEST of a class computes (43_selector.md R178). -/
def suggestEffect (c : Class) : Effect :=
  { full := [], code := .none, trunc := false, result := algResult (suggest c), sample := 0#32 }

/-- The codec AUTO.ENC runs once the algorithm is resolved (43_selector.md R179, 40_dispatch.md R111). -/
def encodeWith (a : Alg) (inp : List Byte) : List Byte :=
  if a = .rle then rleEncode inp else lzEncode inp

/-- What AUTO.ENC computes, with the selector and without it (43_selector.md R179, R180). -/
def autoEffect (clsPresent : Bool) (inp : List Byte) : Effect :=
  if clsPresent then
    { full := encodeWith (suggest (classify inp)) inp
      code := .none
      trunc := false
      result := autoResult (suggest (classify inp)) (classify inp)
      sample := sampleWord (textCount inp) (sampledCount inp) }
  else
    { full := encodeWith .lz inp, code := .none, trunc := false, result := algResult .lz, sample := 0#32 }

/-- CLASSIFY (43_selector.md R176). -/
def execClassify (s : State) : Host.Outcome State Fault Refusal :=
  withSelector s (runCommand (commandRanges s .classify) classifyEffect s)

/-- SUGGEST.TEXT (43_selector.md R178). -/
def execSuggestText (s : State) : Host.Outcome State Fault Refusal :=
  withSelector s (runCommand (commandRanges s .suggestText) (fun _ => suggestEffect .text) s)

/-- SUGGEST.BINARY (43_selector.md R178). -/
def execSuggestBinary (s : State) : Host.Outcome State Fault Refusal :=
  withSelector s (runCommand (commandRanges s .suggestBinary) (fun _ => suggestEffect .binary) s)

/-- SUGGEST.MIXED (43_selector.md R178). -/
def execSuggestMixed (s : State) : Host.Outcome State Fault Refusal :=
  withSelector s (runCommand (commandRanges s .suggestMixed) (fun _ => suggestEffect .mixed) s)

/-- AUTO.ENC (43_selector.md R179). -/
def execAutoEnc (s : State) : Host.Outcome State Fault Refusal :=
  runCommand (commandRanges s .autoEnc) (autoEffect s.clsPresent) s

end Sys2Proof.Machine
end

