-- ==== Sys2Proof/Machine/Dispatch.lean ====
section
/-! DEFINITION. One arm per command: its meaning (40_dispatch.md R109, R111). -/

namespace Sys2Proof.Machine

def exec (i : Instr) (s : State) : Host.Outcome State Fault Refusal :=
  match i with
  -- 41_rle.md
  | .rleEnc => Sys2Proof.Machine.execRleEnc s
  | .rleDec => Sys2Proof.Machine.execRleDec s
  -- 42_lz77.md
  | .lzEnc => Sys2Proof.Machine.execLzEnc s
  | .lzDec => Sys2Proof.Machine.execLzDec s
  -- 43_selector.md
  | .classify => Sys2Proof.Machine.execClassify s
  | .suggestText => Sys2Proof.Machine.execSuggestText s
  | .suggestBinary => Sys2Proof.Machine.execSuggestBinary s
  | .suggestMixed => Sys2Proof.Machine.execSuggestMixed s
  | .autoEnc => Sys2Proof.Machine.execAutoEnc s

end Sys2Proof.Machine
end

