-- ==== Sys2Proof/Machine/HostPort.lean ====
section
/-! DEFINITION. What each move of the host does to the block: register reads and writes, loads and stores of ordinary
memory, and reset (10_state.md R22 to R46, 20_memory.md R70 and R71, 70_reset_and_hazards.md R230 to R233). -/

namespace Sys2Proof

/-- The register at an offset of the window (10_state.md R22, R39). -/
def Reg.ofOffset (offset : Nat) : Reg :=
  if offset = 0x00 then .caps
  else if offset = 0x04 then .cmd
  else if offset = 0x08 then .status
  else if offset = 0x0C then .srcAddr
  else if offset = 0x10 then .srcLen
  else if offset = 0x14 then .dstAddr
  else if offset = 0x18 then .dstCap
  else if offset = 0x1C then .outLen
  else if offset = 0x20 then .result
  else if offset = 0x24 then .sample
  else .reserved

end Sys2Proof

namespace Sys2Proof.Machine

/-- CAPS (10_state.md R23). -/
def State.caps (s : State) : Word := capsWord s.clsPresent

/-! ## Register reads -/

/-- A read of a result register: the value it holds, or any value while busy (10_state.md R46). -/
def resultRead (s : State) (held : Word) : Word := if s.busy then Config.busyRead s.draws else held

/-- What a read of a register returns (10_state.md R22, R24, R39, R46). -/
def readReg (s : State) : Reg → Word
  | .caps => s.caps
  | .cmd => 0#32
  | .status => s.status
  | .srcAddr => s.srcAddr
  | .srcLen => s.srcLen
  | .dstAddr => s.dstAddr
  | .dstCap => s.dstCap
  | .outLen => resultRead s s.outLen
  | .result => resultRead s s.result
  | .sample => resultRead s s.sample
  | .reserved => 0#32

/-- A STATUS read that returns BUSY = 0 gives the host its buffers back (20_memory.md R70, 70_reset_and_hazards.md R242). -/
def claimsAfterRead (s : State) (r : Reg) : List Ranges :=
  if r = .status ∧ s.busy = false then [] else s.claims

/-- `rd REG`: the block's registers and memory are unchanged (10_state.md R40); the read value is the host's reply. -/
def readMove (r : Reg) (s : State) : State :=
  { s with reply := some (.reg (readReg s r)), claims := claimsAfterRead s r, draws := s.draws + 1 }

/-! ## Register writes -/

/-- A word is accepted at CMD (40_dispatch.md R100); its buffers become the engine's (70_reset_and_hazards.md R242). -/
def acceptCommand (w : Word) (s : State) : State :=
  { s with cmdLatch := w, status := acceptedStatus, claims := wordRanges s w :: s.claims }

/-- A write to a register while idle (10_state.md R22, R24, R32 to R35, R39, R40). -/
def writeIdle (r : Reg) (v : Word) (s : State) : State :=
  match r with
  | .cmd => acceptCommand v s
  | .srcAddr => { s with srcAddr := v }
  | .srcLen => { s with srcLen := v }
  | .dstAddr => { s with dstAddr := v }
  | .dstCap => { s with dstCap := v }
  | .caps => s
  | .status => s
  | .outLen => s
  | .result => s
  | .sample => s
  | .reserved => s

/-- `wr REG, v`: ignored while busy (10_state.md R40, 40_dispatch.md R113). -/
def writeMove (r : Reg) (v : Word) (s : State) : State := if s.busy then s else writeIdle r v s

/-- A register access of the host: refused unless it is an aligned 32-bit access to the window (10_state.md R22, R40). -/
def registerMove (a : RegAccess) (s : State) (move : Reg → State) : Host.Outcome State Fault Refusal :=
  if a.inWindow s.platform.regBase then
    if a.supported s.platform.regBase then .next (move (Reg.ofOffset (a.addr - s.platform.regBase)))
    else .refused .unsupportedAccess
  else .refused .outsideWindow

/-! ## Host loads and stores -/

/-- Byte address `a` is in a buffer that is the engine's (70_reset_and_hazards.md R242). -/
def claimed (claims : List Ranges) (a : Nat) : Bool := claims.any fun r => r.src.has a || r.dst.has a

/-- A host access to ordinary memory: refused on a buffer of the engine's and where no memory backs the address
(20_memory.md R61, R71). -/
def memoryMove (a : Word) (s : State) (next : State) : Host.Outcome State Fault Refusal :=
  if claimed s.claims a.toNat then .refused .bufferRace
  else if s.platform.admits a.toNat then .next next
  else .refused .hostNotBacked

/-- A host store of one byte. -/
def storeMove (a : Word) (v : Byte) (s : State) : State := { s with mem := s.mem.write a.toNat v }

/-- A host load of one byte. -/
def loadMove (a : Word) (s : State) : State := { s with reply := some (.byte (s.mem.read a.toNat)) }

/-! ## Reset -/

/-- Every byte of `n` addresses from `a` takes any value; addresses at or above `2^32` do not exist
(70_reset_and_hazards.md R231). -/
def drawBytes (draw : Nat) : Nat → Nat → Memory → Memory
  | _, 0, m => m
  | a, n + 1, m => drawBytes draw (a + 1) n (if a < addressLimit then m.write a (Config.resetByte draw a) else m)

/-- Memory after a reset: the destination range of an abandoned command is drawn, nothing else changes
(70_reset_and_hazards.md R231, R233). -/
def memoryAfterReset (s : State) : Memory :=
  if s.busy then drawBytes s.draws s.dstAddr.toNat s.dstCap.toNat s.mem else s.mem

/-- The block's reset (70_reset_and_hazards.md R230, R231): the values of 10_state.md R45, CMD_LATCH unspecified. -/
def resetMove (s : State) : State :=
  { s with
    cmdLatch := Config.resetLatch s.draws
    status := 0#32
    srcAddr := 0#32
    srcLen := 0#32
    dstAddr := 0#32
    dstCap := 0#32
    outLen := 0#32
    result := 0#32
    sample := 0#32
    mem := memoryAfterReset s
    claims := []
    draws := s.draws + 1 }

end Sys2Proof.Machine
end

