-- ==== Sys2Proof/Machine/Engine.lean ====
section
/-! DEFINITION. What the engine fetches, and the completion of a word that is no command (40_dispatch.md R101, R102). -/

namespace Sys2Proof.Machine

/-- The word the engine executes: CMD_LATCH (40_dispatch.md R101). Nothing is fetched from memory (20_memory.md R73). -/
def fetchCommand (s : State) : Word := s.cmdLatch

/-- A word that decodes to no command completes with ILLEGAL_CMD and touches no memory (40_dispatch.md R102, 60_exceptions.md R202). -/
def illegalCommand (s : State) : State := raiseEarly .illegalCmd s

/-- The moves that are left when the engine's next turn is put first; an empty list needs none. -/
def engineFirst : List HostMove → List HostMove
  | [] => []
  | m :: ms => .engine :: m :: ms

/-- The words of an opcode-table row of `nbits` bits as one command word, the bits above `nbits` being 0. -/
def tableWord (nbits w : Nat) : Word := BitVec.ofNat 32 (w % 2 ^ nbits)

end Sys2Proof.Machine
end

