-- ==== Sys2Proof/Machine/Step.lean ====
section
/-! DEFINITION. One step of the block and its surroundings. -/

namespace Sys2Proof.Machine

/-- The engine's step (40_dispatch.md R101): decode the latched word and execute it to its end. -/
def engineStep (s : State) : Host.Outcome State Fault Refusal :=
  match decode (fetchCommand s) with
  | .ok i => exec i s
  | .error _ => .next (illegalCommand s)

/-- The engine's turn: its step while busy, nothing while idle (40_dispatch.md R101). -/
def engineTurn (s : State) : Host.Outcome State Fault Refusal := if s.busy then engineStep s else .next s

/-- One step: the oldest pending move, taken off the list; with none pending, the engine's turn (70_reset_and_hazards.md
R250). `wait` stays on the list while busy and ends with the STATUS read that returns BUSY = 0 (30_encoding.md R89). -/
def step (s : State) : Host.Outcome State Fault Refusal :=
  match s.inputs with
  | [] => engineTurn s
  | .engine :: rest => engineTurn { s with inputs := rest }
  | .wait :: rest => if s.busy then engineStep s else .next (readMove .status { s with inputs := rest })
  | .write a v :: rest => registerMove a { s with inputs := rest } fun r => writeMove r v { s with inputs := rest }
  | .read a :: rest => registerMove a { s with inputs := rest } fun r => readMove r { s with inputs := rest }
  | .store a v :: rest => memoryMove a { s with inputs := rest } (storeMove a v { s with inputs := rest })
  | .load a :: rest => memoryMove a { s with inputs := rest } (loadMove a { s with inputs := rest })
  | .reset :: rest => .next (resetMove { s with inputs := rest })

/-- `s` with an opcode-table word accepted at CMD and the engine to move next (log entry 7): the very next step executes it. -/
def State.withFetchWord (s : State) (nbits w : Nat) : State :=
  acceptCommand (tableWord nbits w) { s with inputs := engineFirst s.inputs }

end Sys2Proof.Machine
end

