-- ==== Sys2Proof/Machine/HostProgram.lean ====
section
/-! DEFINITION. The host's statements and pseudo-instructions as lists of moves (30_encoding.md R88, R89). -/

namespace Sys2Proof

/-- The offset of a register in the window (10_state.md R22); of the reserved offsets, the first. -/
def Reg.offset : Reg → Nat
  | .caps => 0x00
  | .cmd => 0x04
  | .status => 0x08
  | .srcAddr => 0x0C
  | .srcLen => 0x10
  | .dstAddr => 0x14
  | .dstCap => 0x18
  | .outLen => 0x1C
  | .result => 0x20
  | .sample => 0x24
  | .reserved => 0x28

end Sys2Proof

namespace Sys2Proof.Machine

/-- The aligned 32-bit access to a register at `REG_BASE + offset` (10_state.md R40). -/
def regAccess (p : Platform) (r : Reg) : RegAccess := { addr := p.regBase + r.offset, width := 4 }

/-- `wr REG, imm32` (30_encoding.md R88). -/
def wr (p : Platform) (r : Reg) (v : Word) : List HostMove := [.write (regAccess p r) v]

/-- `rd REG` (30_encoding.md R88). -/
def rd (p : Platform) (r : Reg) : List HostMove := [.read (regAccess p r)]

/-- `cmd <mnemonic>` (30_encoding.md R88). -/
def cmd (p : Platform) (i : Instr) : List HostMove := wr p .cmd (encode i)

/-- `mem[addr .. addr+k) <- bytes` (30_encoding.md R88). The spec does not say what such a statement does when `addr + k > 2^32`;
here the next address wraps, so that the bytes go on from address 0. DESIGN CHOICE, unsafe (log entry 21). -/
def memStore (addr : Word) : List Byte → List HostMove
  | [] => []
  | v :: vs => .store addr v :: memStore (addr + 1#32) vs

/-- `compress rle`, `compress lz`, `compress auto` (30_encoding.md R89). -/
def compressCmd : Alg → Instr
  | .rle => .rleEnc
  | .lz => .lzEnc
  | .auto => .autoEnc

/-- `decompress rle`, `decompress lz`; there is no `decompress auto` (30_encoding.md R82, R89). -/
def decompressCmd : Alg → Option Instr
  | .rle => some .rleDec
  | .lz => some .lzDec
  | .auto => none

/-- `suggest_algorithm` of a class (30_encoding.md R89); `detect_file_type` is `classify`. -/
def suggestCmd : Class → Instr
  | .text => .suggestText
  | .binary => .suggestBinary
  | .mixed => .suggestMixed

/-- `run <mnemonic>` (30_encoding.md R89). -/
def runCmd (p : Platform) (i : Instr) : List HostMove := cmd p i ++ [.wait]

/-- `setbuf src, n, dst, cap` (30_encoding.md R89). -/
def setbuf (p : Platform) (src n dst cap : Word) : List HostMove :=
  wr p .srcAddr src ++ wr p .srcLen n ++ wr p .dstAddr dst ++ wr p .dstCap cap

end Sys2Proof.Machine
end

