-- ==== Sys2Proof/Machine/Instances.lean ====
section
/-! DEFINITION. Several blocks on one byte memory (20_memory.md R74, 60_exceptions.md R216; log entry 15). -/

namespace Sys2Proof.Machine

/-- `NUM_INSTANCES` blocks, one memory. Each block's own `mem` field is kept empty: the memory is the system's. The counter of the
free values is the system's too, so that no two blocks draw with the same number (DESIGN CHOICE, safe, log entry 22). -/
structure System where
  mem    : Memory
  draws  : Nat
  blocks : List State
  deriving DecidableEq, Repr

/-- A block as it sees the shared memory, with the system's draw counter. -/
def System.view (sys : System) (b : State) : State := { b with mem := sys.mem, draws := sys.draws }

/-- The system after block `k` moved to `t`: the other blocks' registers are untouched (60_exceptions.md R216). -/
def System.afterMove (sys : System) (k : Nat) (t : State) : System :=
  { mem := t.mem, draws := t.draws, blocks := sys.blocks.set k { t with mem := [], draws := 0 } }

/-- The other blocks than block `k`. -/
def System.others (sys : System) (k : Nat) : List State := sys.blocks.eraseIdx k

/-- The ranges of the command a block has latched. -/
def latchedRanges (b : State) : Ranges := wordRanges b (fetchCommand b)

/-- One command's destination meets a range of another (20_memory.md R74); two sources may overlap. -/
def rangesClash (r q : Ranges) : Bool := r.dst.meets q.src || r.dst.meets q.dst || r.src.meets q.dst

/-- Two blocks are busy with buffers that clash (20_memory.md R74). -/
def blocksClash (b c : State) : Bool := b.busy && c.busy && rangesClash (latchedRanges b) (latchedRanges c)

/-- The next move of a block is a host load or store of a byte that another block's claim holds (20_memory.md R71, R74). -/
def touchesClaims (b : State) (others : List State) : Bool :=
  match b.inputs with
  | .store a _ :: _ => others.any fun c => claimed c.claims a.toNat
  | .load a :: _ => others.any fun c => claimed c.claims a.toNat
  | _ => false

/-- Block `k` of the system takes one step. -/
def System.step (sys : System) (k : Nat) : Host.Outcome System Fault Refusal :=
  match sys.blocks[k]? with
  | none => .refused .noSuchInstance
  | some b =>
    if (sys.others k).any (blocksClash b) then .refused .instanceRace
    else if touchesClaims b (sys.others k) then .refused .bufferRace
    else
      match Sys2Proof.Machine.step (sys.view b) with
      | .next t => .next (sys.afterMove k t)
      | .fault r => .fault r
      | .refused r => .refused r

end Sys2Proof.Machine
end

