-- ==== Sys2Proof/Machine/Pseudocode.lean ====
section
/-! DEFINITION. The four codec loops as the spec prints them, positions and all, with `emit` inside the loop
(41_rle.md R120 and R124, 42_lz77.md R146 and R150). The commands run the functions of Rle.lean and Lz77.lean, which give the
whole output first (40_dispatch.md R107); the obligations say that the two agree. -/

namespace Sys2Proof.Machine

/-- Going on after an emission that did not stop. -/
def Emission.andThen (o : Emission) (k : Memory → Nat → Emission) : Emission :=
  match o with
  | .done m n => k m n
  | .overflow m n => .overflow m n
  | .stuck => .stuck

/-- The inner loop of `rle_encode`: `run` at its end, with at most `left` more passes (41_rle.md R120). -/
def countRun (inp : List Byte) (pos : Nat) (v : Byte) : Nat → Nat → Nat
  | 0, run => run
  | left + 1, run =>
    if pos + run < inp.length ∧ inp[pos + run]? = some v ∧ run < rleMaxRun then countRun inp pos v left (run + 1) else run

/-- `rle_encode(in)` from `pos` with at most `fuel` tokens (41_rle.md R120). -/
def rleEncodeLoop (p : Platform) (dst cap : Nat) (inp : List Byte) : Nat → Nat → Memory → Nat → Emission
  | 0, _, m, k => .done m k
  | fuel + 1, pos, m, k =>
    match inp[pos]? with
    | none => .done m k
    | some v =>
      (emit p dst cap m k (BitVec.ofNat 8 (countRun inp pos v rleMaxRun 1))).andThen fun m k =>
        (emit p dst cap m k v).andThen fun m k =>
          rleEncodeLoop p dst cap inp fuel (pos + countRun inp pos v rleMaxRun 1) m k

/-- `repeat c times: emit(v)` (41_rle.md R124). -/
def emitTimes (p : Platform) (dst cap : Nat) (v : Byte) : Nat → Memory → Nat → Emission
  | 0, m, k => .done m k
  | c + 1, m, k => (emit p dst cap m k v).andThen fun m k => emitTimes p dst cap v c m k

/-- `rle_decode(in)` from input position `pos` with at most `fuel` tokens (41_rle.md R124). -/
def rleDecodeLoop (p : Platform) (dst cap : Nat) (inp : List Byte) : Nat → Nat → Memory → Nat → Emission
  | 0, _, m, k => .done m k
  | fuel + 1, pos, m, k =>
    match inp[pos]?, inp[pos + 1]? with
    | some c, some v =>
      (emitTimes p dst cap v c.toNat m k).andThen fun m k => rleDecodeLoop p dst cap inp fuel (pos + 2) m k
    | _, _ => .done m k

/-- `lz_encode(in)` from `pos` with at most `fuel` tokens (42_lz77.md R146). -/
def lzEncodeLoop (p : Platform) (dst cap : Nat) (inp : List Byte) : Nat → Nat → Memory → Nat → Emission
  | 0, _, m, k => .done m k
  | fuel + 1, pos, m, k =>
    match inp[pos]? with
    | none => .done m k
    | some v =>
      if 2 < (bestMatch inp pos).len then
        (emitAll p dst cap m k (backrefToken (bestMatch inp pos).off (bestMatch inp pos).len)).andThen fun m k =>
          lzEncodeLoop p dst cap inp fuel (pos + (bestMatch inp pos).len) m k
      else
        (emitAll p dst cap m k (literalToken v)).andThen fun m k => lzEncodeLoop p dst cap inp fuel (pos + 1) m k

/-- Where `lz_decode` is, or how it ended. -/
inductive DecodeRun where
  /-- Going on, or ended normally: memory and the output so far. -/
  | ok (mem : Memory) (out : List Byte)
  /-- `raise Error(CORRUPT_STREAM)`. -/
  | corrupt (mem : Memory) (out : List Byte)
  /-- `raise Error(DST_OVERFLOW)` inside `emit`. -/
  | overflow (mem : Memory) (out : List Byte)
  /-- A byte was due at an address with `MEM_ADMITS = false`. -/
  | stuck
  deriving DecidableEq, Repr

/-- Going on after a part of `lz_decode` that did not stop. -/
def DecodeRun.andThen (o : DecodeRun) (k : Memory → List Byte → DecodeRun) : DecodeRun :=
  match o with
  | .ok m out => k m out
  | .corrupt m out => .corrupt m out
  | .overflow m out => .overflow m out
  | .stuck => .stuck

/-- `emit(v)` with the output kept as `out` (40_dispatch.md R107). -/
def emitOut (p : Platform) (dst cap : Nat) (m : Memory) (out : List Byte) (v : Byte) : DecodeRun :=
  match emit p dst cap m out.length v with
  | .done m' _ => .ok m' (out ++ [v])
  | .overflow m' _ => .overflow m' out
  | .stuck => .stuck

/-- The copy loop of `lz_decode`, one `emit` a byte (42_lz77.md R150, R154). -/
def copyLoop (p : Platform) (dst cap start : Nat) : Nat → Nat → Memory → List Byte → DecodeRun
  | 0, _, m, out => .ok m out
  | left + 1, j, m, out =>
    match out[start + j]? with
    | some b => (emitOut p dst cap m out b).andThen fun m out => copyLoop p dst cap start left (j + 1) m out
    | none => copyLoop p dst cap start left (j + 1) m out

/-- `lz_decode(in)` from input position `pos` with at most `fuel` tokens (42_lz77.md R150). -/
def lzDecodeLoop (p : Platform) (dst cap : Nat) (inp : List Byte) : Nat → Nat → Memory → List Byte → DecodeRun
  | 0, _, m, out => .ok m out
  | fuel + 1, pos, m, out =>
    match inp[pos]?, inp[pos + 1]?, inp[pos + 2]?, inp[pos + 3]? with
    | some hi, some lo, some len, some lit =>
      if tokenOffset hi lo = 0 ∧ len.toNat = 0 then
        (emitOut p dst cap m out lit).andThen fun m out => lzDecodeLoop p dst cap inp fuel (pos + 4) m out
      else if out.length < tokenOffset hi lo then .corrupt m out
      else
        (copyLoop p dst cap (out.length - tokenOffset hi lo) len.toNat 0 m out).andThen fun m out =>
          lzDecodeLoop p dst cap inp fuel (pos + 4) m out
    | _, _, _, _ => .ok m out

end Sys2Proof.Machine
end

