-- ==== Sys2Proof/Safety.lean ====
section
/-! DEFINITION. The terms claims use: the invariant of the block, when a command's operands pass its checks, and when the
engine cannot get stuck. -/

namespace Sys2Proof.Machine

/-! ## The invariant -/

/-- A value STATUS may hold: 0 after reset, the accepted value while busy, or a completion (10_state.md R25 to R31). -/
def StatusLegal (w : Word) : Prop :=
  w = 0#32 ∨ w = acceptedStatus ∨ ∃ code trunc, w = completionStatus code trunc

/-- A value RESULT may hold (10_state.md R37). -/
def ResultLegal (w : Word) : Prop :=
  w = 0#32 ∨ (∃ c, w = classResult c) ∨ w = algResult .rle ∨ w = algResult .lz ∨ (∃ c, w = autoResult .rle c) ∨
    ∃ c, w = autoResult .lz c

/-- A value SAMPLE may hold: `0 <= t <= m <= 1024` (43_selector.md R172). -/
def SampleLegal (w : Word) : Prop := ∃ t m, t ≤ m ∧ m ≤ sampleCap ∧ w = sampleWord t m

/-- What every step keeps: the memory in canonical form, and STATUS, RESULT and SAMPLE holding only values the spec produces. -/
structure StateInv (s : State) : Prop where
  mem    : s.mem.wf = true
  status : StatusLegal s.status
  result : ResultLegal s.result
  sample : SampleLegal s.sample

/-! ## When a command runs to its end -/

/-- Every byte address of the region is backed (20_memory.md R61). -/
def Backed (p : Platform) (r : Region) : Prop := ∀ a, r.base ≤ a → a < r.base + r.n → p.admits a = true

/-- The ranges pass the range check and the overlap check (40_dispatch.md R104, R105). -/
def RangesPass (r : Ranges) : Prop :=
  r.src.base + r.src.n ≤ addressLimit ∧ r.dst.base + r.dst.n ≤ addressLimit ∧
    ¬ (0 < r.src.n ∧ 0 < r.dst.n ∧ r.src.base < r.dst.base + r.dst.n ∧ r.dst.base < r.src.base + r.src.n)

/-- The bytes of a region (00_scope.md R19). -/
def bytesAt (s : State) (r : Region) : List Byte := s.mem.readList r.base r.n

/-- The source buffer's bytes, `in` of 40_dispatch.md R106. -/
def sourceBytes (s : State) : List Byte := bytesAt s (sourceRegion s)

/-! ## Commands and runs -/

/-- The commands with a source and a destination buffer (40_dispatch.md R103). -/
def IsBufferCommand (i : Instr) : Prop := i = .rleEnc ∨ i = .lzEnc ∨ i = .autoEnc ∨ i = .rleDec ∨ i = .lzDec

/-- The command map, word by word (30_encoding.md R85). -/
def commandMap : List (Word × Instr) :=
  [(0x00000001#32, .rleEnc), (0x00000011#32, .lzEnc), (0x00000021#32, .autoEnc), (0x00000002#32, .rleDec),
    (0x00000012#32, .lzDec), (0x00000003#32, .classify), (0x00000004#32, .suggestText),
    (0x00000044#32, .suggestBinary), (0x00000084#32, .suggestMixed)]

/-- The words that complete with ILLEGAL_CMD, case by case (60_exceptions.md R202). -/
def IllegalWord (clsPresent : Bool) (w : Word) : Prop :=
  rsvdField w ≠ 0#24 ∨
    (opField w ≠ 1#4 ∧ opField w ≠ 2#4 ∧ opField w ≠ 3#4 ∧ opField w ≠ 4#4) ∨
    algField w = 3#2 ∨
    (algField w = 2#2 ∧ opField w = 2#4) ∨
    (algField w ≠ 0#2 ∧ (opField w = 3#4 ∨ opField w = 4#4)) ∨
    (clsField w ≠ 0#2 ∧ opField w ≠ 4#4) ∨
    (clsField w = 3#2 ∧ opField w = 4#4) ∨
    (clsPresent = false ∧ (opField w = 3#4 ∨ opField w = 4#4))

/-- The bytes a command would write were the capacity unbounded (40_dispatch.md R107). -/
def outputStream (clsPresent : Bool) : Instr → List Byte → List Byte
  | .rleEnc, inp => rleEncode inp
  | .rleDec, inp => rleDecode inp
  | .lzEnc, inp => lzEncode inp
  | .lzDec, inp => (lzDecode inp).out
  | .autoEnc, inp => if clsPresent then encodeWith (suggest (classify inp)) inp else lzEncode inp
  | .classify, _ => []
  | .suggestText, _ => []
  | .suggestBinary, _ => []
  | .suggestMixed, _ => []

/-- A command with a destination passes its checks, and memory backs its source and the part of `out` that fits:
when it runs to its end (20_memory.md R61, 40_dispatch.md R104, R105). -/
def Unobstructed (s : State) (out : List Byte) : Prop :=
  RangesPass (bufferRanges s) ∧ Backed s.platform (sourceRegion s) ∧
    Backed s.platform { base := s.dstAddr.toNat, n := min out.length s.dstCap.toNat }

/-- The state a command that wrote `out` ends in (40_dispatch.md R108). -/
def afterCommand (s : State) (out : List Byte) (status result sample : Word) : State :=
  { s with
    mem := s.mem.writeList s.dstAddr.toNat out
    outLen := BitVec.ofNat 32 out.length
    status := status
    result := result
    sample := sample }

/-- The state a command that ended in ILLEGAL_CMD, RANGE or OVERLAP leaves (40_dispatch.md R109). -/
def afterEarlyError (s : State) (status : Word) : State :=
  { s with outLen := 0#32, status := status, result := 0#32, sample := 0#32 }

/-- A state some run reaches: steps from reset, with any moves of the surroundings added at any time, in any build, on any
platform and with any memory contents. -/
inductive Reachable : State → Prop where
  | reset (clsPresent : Bool) (platform : Platform) (mem : Memory) (h : mem.wf = true) :
    Reachable { State.reset with clsPresent := clsPresent, platform := platform, mem := mem }
  | input (s : State) (moves : List HostMove) : Reachable s → Reachable { s with inputs := s.inputs ++ moves }
  | step (s t : State) : Reachable s → Sys2Proof.Machine.step s = .next t → Reachable t

end Sys2Proof.Machine
end

