-- ==== Sys2Proof/Certificates/Slice0/Obligations.lean ====
section
/-! DEFINITION. The statements for the provers. -/

open Sys2Proof Sys2Proof.Machine

/-! ## Encoding -/

/-- 30_encoding.md R85: the nine words of the map and no others are commands; without the selector CLASSIFY and the three
SUGGEST words are illegal too, and AUTO.ENC stays legal. -/
def Obligations.CommandMapIsExact : Prop :=
  ∀ (clsPresent : Bool) (w : Word) (i : Instr),
    decodeFor clsPresent w = .ok i ↔
      (w, i) ∈ commandMap ∧
        (i = .classify ∨ i = .suggestText ∨ i = .suggestBinary ∨ i = .suggestMixed → clsPresent = true)

/-- The decoder inverts the encoder on every 32-bit word (30_encoding.md R80 to R85). -/
def Obligations.DecodeInvertsEncode : Prop :=
  ∀ (w : Word) (i : Instr), decode w = .ok i ↔ w = encode i

/-- A few words written out from 30_encoding.md R80 to R85, legal and illegal. -/
def Obligations.SampleWordsDecode : Prop :=
  decode 0b00000000_00000000_00000000_0010_0001#32 = .ok .autoEnc ∧
    decode 0b00000000_00000000_00000000_0001_0010#32 = .ok .lzDec ∧
    decode 0b00000000_00000000_00000000_0000_0011#32 = .ok .classify ∧
    decode 0b00000000_00000000_00000000_1000_0100#32 = .ok .suggestMixed ∧
    decode 0b00000000_00000000_00000000_0010_0010#32 = .error .illegalAlg ∧
    decode 0b00000000_00000000_00000000_1100_0100#32 = .error .illegalCls ∧
    decode 0b10000000_00000000_00000000_0000_0001#32 = .error .reservedBits ∧
    decode 0b00000000_00000000_00000000_0000_0101#32 = .error .reservedOp

/-- 60_exceptions.md R202: a word of one of its cases completes with ILLEGAL_CMD and does nothing else; every other word
runs the command it decodes to, one that the build has. -/
def Obligations.IllegalWordsCompleteWithIllegalCmd : Prop :=
  ∀ s : State,
    (IllegalWord s.clsPresent s.cmdLatch → engineStep s = .next (afterEarlyError s 0x00000106#32)) ∧
      (¬ IllegalWord s.clsPresent s.cmdLatch →
        ∃ i, decode s.cmdLatch = .ok i ∧ i.wellFormed s.clsPresent = true ∧ engineStep s = exec i s)

/-! ## The step -/

/-- A busy engine's step executes the latched command (40_dispatch.md R101): with no move pending, at its turn, and while the
host waits; `exec` runs at the state less the turn taken off the list. -/
def Obligations.BusyStepExecutesLatchedCommand : Prop :=
  ∀ (s : State) (i : Instr), s.busy = true → decode s.cmdLatch = .ok i →
    (s.inputs = [] → step s = exec i s) ∧
      (∀ rest, s.inputs = .engine :: rest → step s = exec i { s with inputs := rest }) ∧
      ∀ rest, s.inputs = .wait :: rest → step s = exec i s

/-- The word that `withFetchWord` places is what the very next step executes (the model's own fetch, log entry 7). -/
def Obligations.PlacedWordIsExecutedNext : Prop :=
  ∀ (s : State) (w : Word) (i : Instr), decode w = .ok i →
    step (s.withFetchWord 32 w.toNat) = exec i (acceptCommand w s)

/-- An idle engine has no step (40_dispatch.md R101): its turn changes nothing, and `wait` ends with a STATUS read. -/
def Obligations.IdleEngineHasNoStep : Prop :=
  ∀ s : State, s.busy = false →
    (s.inputs = [] → step s = .next s) ∧
      (∀ rest, s.inputs = .engine :: rest → step s = .next { s with inputs := rest }) ∧
      ∀ rest, s.inputs = .wait :: rest →
        ∃ t, step s = .next t ∧ t.reply = some (.reg s.status) ∧ t.inputs = rest ∧ t.claims = []

/-! ## The host's moves -/

/-- 40_dispatch.md R100: a word written to CMD while idle is latched, whatever it is, STATUS becomes 1, and nothing else
changes (`claims` is the model's own record of the buffers handed over, log entry 11); an illegal word is reported at
completion. -/
def Obligations.CommandWriteIsAccepted : Prop :=
  ∀ (s : State) (w : Word) (rest : List HostMove), s.busy = false →
    s.inputs = .write { addr := s.platform.regBase + 0x04, width := 4 } w :: rest →
      ∃ t, step s = .next t ∧
        t = { s with inputs := rest, cmdLatch := w, status := 0x00000001#32, claims := t.claims } ∧
        (IllegalWord s.clsPresent w → engineStep t = .next (afterEarlyError t 0x00000106#32))

/-- 40_dispatch.md R113 and 70_reset_and_hazards.md R241: while busy, a write to CMD or to any other register is ignored and not
queued. -/
def Obligations.WritesWhileBusyAreIgnored : Prop :=
  ∀ (s : State) (a : RegAccess) (v : Word) (rest : List HostMove), s.busy = true →
    a.wellFormed s.platform.regBase = true → s.inputs = .write a v :: rest → step s = .next { s with inputs := rest }

/-- 10_state.md R32 to R35: while idle, a write to SRC_ADDR, SRC_LEN, DST_ADDR or DST_CAP is what the register then reads, and
no other register reads otherwise; the memory and the latch are untouched. -/
def Obligations.OperandRegistersHoldWhatIsWritten : Prop :=
  ∀ (s : State) (r : Reg) (v : Word) (rest : List HostMove), s.busy = false →
    r = .srcAddr ∨ r = .srcLen ∨ r = .dstAddr ∨ r = .dstCap → s.inputs = .write (regAccess s.platform r) v :: rest →
      ∃ t, step s = .next t ∧ readReg t r = v ∧ (∀ q, q ≠ r → readReg t q = readReg s q) ∧ t.mem = s.mem ∧
        t.cmdLatch = s.cmdLatch ∧ t.platform = s.platform ∧ t.draws = s.draws ∧ t.claims = s.claims ∧ t.inputs = rest

/-- 10_state.md R39 and R40: a write to CAPS, STATUS, OUT_LEN, RESULT, SAMPLE or a reserved offset is ignored. -/
def Obligations.ReadOnlyRegistersIgnoreWrites : Prop :=
  ∀ (s : State) (off : Nat) (v : Word) (rest : List HostMove),
    off ∈ [0x00, 0x08, 0x1C, 0x20, 0x24, 0x28, 0x2C, 0x30, 0x34, 0x38, 0x3C] →
      s.inputs = .write { addr := s.platform.regBase + off, width := 4 } v :: rest → step s = .next { s with inputs := rest }

/-- 10_state.md R22, R23, R24, R39, R40: what a read of each offset of the window returns, and that a read changes no register
and no memory (`reply`, `claims` and `draws` are the model's own). -/
def Obligations.RegisterReadsFollowTheMap : Prop :=
  ∀ (s : State) (off : Nat) (rest : List HostMove), off < 0x40 → off % 4 = 0 →
    s.inputs = .read { addr := s.platform.regBase + off, width := 4 } :: rest →
      ∃ t v, step s = .next t ∧ t.reply = some (.reg v) ∧
        t = { s with inputs := rest, reply := t.reply, claims := t.claims, draws := t.draws } ∧
        (off = 0x00 → v = if s.clsPresent then 0x10000F01#32 else 0x10000F00#32) ∧
        (off = 0x04 → v = 0#32) ∧ (off = 0x08 → v = s.status) ∧ (off = 0x0C → v = s.srcAddr) ∧
        (off = 0x10 → v = s.srcLen) ∧ (off = 0x14 → v = s.dstAddr) ∧ (off = 0x18 → v = s.dstCap) ∧
        (s.busy = false → off = 0x1C → v = s.outLen) ∧ (s.busy = false → off = 0x20 → v = s.result) ∧
        (s.busy = false → off = 0x24 → v = s.sample) ∧ (0x28 ≤ off → v = 0#32)

/-- While busy, what a host reads does not depend on what OUT_LEN, RESULT and SAMPLE hold. 10_state.md R46 lets the read return any
value, the held one included; that it is the same value in both states is the model's own way to draw it, from the draw counter
(log entry 8, DEDUCED). -/
def Obligations.BusyReadsDoNotShowResults : Prop :=
  ∀ (s t t' : State) (a : RegAccess) (rest : List HostMove) (n r p : Word), s.busy = true → s.inputs = .read a :: rest →
    step s = .next t → step { s with outLen := n, result := r, sample := p } = .next t' → t.reply = t'.reply

/-- 10_state.md R40: a register access in the window that is not an aligned 32-bit one is a move the model refuses. -/
def Obligations.UnsupportedAccessesAreRefused : Prop :=
  ∀ (s : State) (off width : Nat) (v : Word) (rest : List HostMove), off < 0x40 → width ≠ 4 ∨ off % 4 ≠ 0 →
    (s.inputs = .write { addr := s.platform.regBase + off, width := width } v :: rest → step s = .refused .unsupportedAccess) ∧
      (s.inputs = .read { addr := s.platform.regBase + off, width := width } :: rest → step s = .refused .unsupportedAccess)

/-- 70_reset_and_hazards.md R242, 20_memory.md R71: an accepted CMD write claims the command's source and destination ranges; the
host's accesses to a claimed range are refused; every step keeps every claim, but for a reset, a STATUS read while idle and the
one that ends `wait`; and the STATUS read that returns BUSY = 0 ends them all (the claims are the model's, log entry 11). -/
def Obligations.BuffersAreTheEnginesUntilIdleIsRead : Prop :=
  (∀ (s : State) (w : Word) (rest : List HostMove), s.busy = false →
    s.inputs = .write { addr := s.platform.regBase + 0x04, width := 4 } w :: rest →
      ∃ t, step s = .next t ∧ t.claims = wordRanges s w :: s.claims) ∧
    (∀ (s : State) (r : Ranges) (a : Word) (v : Byte) (rest : List HostMove), r ∈ s.claims →
      r.src.has a.toNat = true ∨ r.dst.has a.toNat = true →
        (s.inputs = .store a v :: rest → step s = .refused .bufferRace) ∧
          (s.inputs = .load a :: rest → step s = .refused .bufferRace)) ∧
    (∀ s t : State, step s = .next t → (∀ rest, s.inputs ≠ .reset :: rest) →
      (s.busy = false → ∀ rest,
        s.inputs ≠ .wait :: rest ∧ s.inputs ≠ .read { addr := s.platform.regBase + 0x08, width := 4 } :: rest) →
        ∀ r, r ∈ s.claims → r ∈ t.claims) ∧
    (∀ (i : Instr) (s t : State), exec i s = .next t → t.claims = s.claims) ∧
    ∀ (s : State) (rest : List HostMove), s.inputs = .read { addr := s.platform.regBase + 0x08, width := 4 } :: rest →
      ∃ t, step s = .next t ∧ (s.busy = false → t.claims = []) ∧ (s.busy = true → t.claims = s.claims)

/-- 10_state.md R43, 20_memory.md R62: a host store to a backed byte that is not the engine's changes that byte and nothing
else; a load returns the byte and changes nothing of the block. -/
def Obligations.HostAccessesOrdinaryMemory : Prop :=
  ∀ (s : State) (a : Word) (v : Byte) (rest : List HostMove), claimed s.claims a.toNat = false →
    s.platform.admits a.toNat = true →
      (s.inputs = .store a v :: rest →
        ∃ t, step s = .next t ∧ t = { s with inputs := rest, mem := t.mem } ∧
          ∀ b, t.mem.read b = if b = a.toNat then v else s.mem.read b) ∧
        (s.inputs = .load a :: rest → step s = .next { s with inputs := rest, reply := some (.byte (s.mem.read a.toNat)) })

/-- 10_state.md R45, 70_reset_and_hazards.md R230, R231, R233: reset leaves every register at its reset value and the engine idle;
memory is unchanged, but that a reset while busy may change the bytes of the destination range. -/
def Obligations.ResetRestoresRegistersAndKeepsMemory : Prop :=
  ∀ (s : State) (rest : List HostMove), s.inputs = .reset :: rest →
    ∃ t, step s = .next t ∧ t.status = 0#32 ∧ t.srcAddr = 0#32 ∧ t.srcLen = 0#32 ∧ t.dstAddr = 0#32 ∧ t.dstCap = 0#32 ∧
      t.outLen = 0#32 ∧ t.result = 0#32 ∧ t.sample = 0#32 ∧ t.busy = false ∧ t.clsPresent = s.clsPresent ∧
      t.platform = s.platform ∧ (s.busy = false → t.mem = s.mem) ∧
      ∀ a, (destinationRegion s).has a = false → t.mem.read a = s.mem.read a

/-! ## The commands -/

/-- RLE.ENC (41_rle.md R121): when the operands pass, memory backs what it touches and the encoding fits, it completes with
the encoding written, OUT_LEN its length, STATUS 0x2, and RESULT and SAMPLE 0; nothing else changes. -/
def Obligations.RleEncWritesTheEncoding : Prop :=
  ∀ s : State, Unobstructed s (rleEncode (sourceBytes s)) → (rleEncode (sourceBytes s)).length ≤ s.dstCap.toNat →
    exec .rleEnc s = .next (afterCommand s (rleEncode (sourceBytes s)) 0x00000002#32 0#32 0#32)

/-- RLE.DEC (41_rle.md R125): as RLE.ENC with the decoding; STATUS is 0x2, or 0xA (TRUNC) when the source length is odd. -/
def Obligations.RleDecWritesTheDecoding : Prop :=
  ∀ s : State, Unobstructed s (rleDecode (sourceBytes s)) → (rleDecode (sourceBytes s)).length ≤ s.dstCap.toNat →
    exec .rleDec s = .next (afterCommand s (rleDecode (sourceBytes s))
      (if s.srcLen.toNat % 2 = 1 then 0x0000000A#32 else 0x00000002#32) 0#32 0#32)

/-- LZ.ENC (42_lz77.md R147): as RLE.ENC with the LZ77 encoding. -/
def Obligations.LzEncWritesTheEncoding : Prop :=
  ∀ s : State, Unobstructed s (lzEncode (sourceBytes s)) → (lzEncode (sourceBytes s)).length ≤ s.dstCap.toNat →
    exec .lzEnc s = .next (afterCommand s (lzEncode (sourceBytes s)) 0x00000002#32 0#32 0#32)

/-- LZ.DEC on a stream with no corrupt token (42_lz77.md R157): the decoding is written; STATUS is 0x2, or 0xA (TRUNC) when the
source length is no multiple of 4. -/
def Obligations.LzDecWritesTheDecoding : Prop :=
  ∀ s : State, (lzDecode (sourceBytes s)).corrupt = false → Unobstructed s (lzDecode (sourceBytes s)).out →
    (lzDecode (sourceBytes s)).out.length ≤ s.dstCap.toNat →
      exec .lzDec s = .next (afterCommand s (lzDecode (sourceBytes s)).out
        (if s.srcLen.toNat % 4 = 0 then 0x00000002#32 else 0x0000000A#32) 0#32 0#32)

/-- CLASSIFY in a build with the selector (43_selector.md R176): when the sample's range passes and is backed, RESULT is
0x4 plus the class, SAMPLE the text count above the sample size, STATUS 0x2 and OUT_LEN 0; nothing else changes. -/
def Obligations.ClassifyReportsClassAndCounts : Prop :=
  ∀ s : State, s.clsPresent = true → s.srcAddr.toNat + min s.srcLen.toNat 1024 ≤ 4294967296 →
    Backed s.platform (sampleRegion s) →
      exec .classify s = .next { s with
        outLen := 0#32
        status := 0x00000002#32
        result := match classify (bytesAt s (sampleRegion s)) with
          | .text => 0x00000004#32
          | .binary => 0x00000005#32
          | .mixed => 0x00000006#32
        sample := BitVec.ofNat 32
          (textCount (bytesAt s (sampleRegion s)) * 65536 + min s.srcLen.toNat 1024) }

/-- SUGGEST.TEXT, SUGGEST.BINARY and SUGGEST.MIXED in a build with the selector (43_selector.md R177, R178): RESULT 0x40, 0x50
and 0x50, whatever the operand registers hold, and no memory is written. -/
def Obligations.SuggestReportsTheAlgorithm : Prop :=
  ∀ s : State, s.clsPresent = true →
    exec .suggestText s =
        .next { s with outLen := 0#32, status := 0x00000002#32, result := 0x00000040#32, sample := 0#32 } ∧
      exec .suggestBinary s =
        .next { s with outLen := 0#32, status := 0x00000002#32, result := 0x00000050#32, sample := 0#32 } ∧
      exec .suggestMixed s =
        .next { s with outLen := 0#32, status := 0x00000002#32, result := 0x00000050#32, sample := 0#32 }

/-- AUTO.ENC in a build with the selector (43_selector.md R179): Text runs the RLE encoder with RESULT 0x44, Binary and Mixed the
LZ77 encoder with RESULT 0x55 and 0x56; SAMPLE holds the counts; STATUS is 0x2. -/
def Obligations.AutoEncResolvesAndEncodes : Prop :=
  ∀ (s : State) (out : List Byte), s.clsPresent = true →
    out = (match classify (sourceBytes s) with
      | .text => rleEncode (sourceBytes s)
      | .binary => lzEncode (sourceBytes s)
      | .mixed => lzEncode (sourceBytes s)) →
    Unobstructed s out → out.length ≤ s.dstCap.toNat →
      exec .autoEnc s = .next (afterCommand s out 0x00000002#32
        (match classify (sourceBytes s) with
          | .text => 0x00000044#32
          | .binary => 0x00000055#32
          | .mixed => 0x00000056#32)
        (BitVec.ofNat 32 (textCount (sourceBytes s) * 65536 + min s.srcLen.toNat 1024)))

/-- 43_selector.md R180: without the selector CLASSIFY and SUGGEST complete with ILLEGAL_CMD, and AUTO.ENC runs the LZ77 encoder
with RESULT 0x50 and no sample. -/
def Obligations.BuildWithoutSelector : Prop :=
  ∀ s : State, s.clsPresent = false →
    exec .classify s = .next (afterEarlyError s 0x00000106#32) ∧
      exec .suggestText s = .next (afterEarlyError s 0x00000106#32) ∧
      exec .suggestBinary s = .next (afterEarlyError s 0x00000106#32) ∧
      exec .suggestMixed s = .next (afterEarlyError s 0x00000106#32) ∧
      (Unobstructed s (lzEncode (sourceBytes s)) → (lzEncode (sourceBytes s)).length ≤ s.dstCap.toNat →
        exec .autoEnc s = .next (afterCommand s (lzEncode (sourceBytes s)) 0x00000002#32 0x00000050#32 0#32))

/-! ## Errors -/

/-- 60_exceptions.md R203: a command whose source or destination range passes `2^32` completes with RANGE, whatever memory holds
or backs, and before any overlap is looked at (R208). -/
def Obligations.RangeErrorBeforeAnyAccess : Prop :=
  ∀ s : State,
    (∀ i, IsBufferCommand i →
      4294967296 < s.srcAddr.toNat + s.srcLen.toNat ∨ 4294967296 < s.dstAddr.toNat + s.dstCap.toNat →
        exec i s = .next (afterEarlyError s 0x00000206#32)) ∧
      (s.clsPresent = true → 4294967296 < s.srcAddr.toNat + min s.srcLen.toNat 1024 →
        exec .classify s = .next (afterEarlyError s 0x00000206#32))

/-- 60_exceptions.md R204: a command whose ranges pass the range check, are both non-empty and intersect completes with OVERLAP,
whatever memory holds or backs. -/
def Obligations.OverlapErrorBeforeAnyAccess : Prop :=
  ∀ (s : State) (i : Instr), IsBufferCommand i →
    s.srcAddr.toNat + s.srcLen.toNat ≤ 4294967296 → s.dstAddr.toNat + s.dstCap.toNat ≤ 4294967296 →
    0 < s.srcLen.toNat → 0 < s.dstCap.toNat → s.srcAddr.toNat < s.dstAddr.toNat + s.dstCap.toNat →
    s.dstAddr.toNat < s.srcAddr.toNat + s.srcLen.toNat →
      exec i s = .next (afterEarlyError s 0x00000306#32)

/-- 60_exceptions.md R206: a command with more output than DST_CAP writes exactly the first DST_CAP bytes and completes with
DST_OVERFLOW; RESULT and SAMPLE are 0 but for AUTO.ENC, which keeps what it would have reported (R201). -/
def Obligations.OverflowWritesExactlyTheCapacity : Prop :=
  ∀ (s : State) (i : Instr) (out : List Byte), IsBufferCommand i → out = outputStream s.clsPresent i (sourceBytes s) →
    Unobstructed s out → s.dstCap.toNat < out.length →
      ∃ r p, exec i s = .next (afterCommand s (out.take s.dstCap.toNat) 0x00000506#32 r p) ∧
        (afterCommand s (out.take s.dstCap.toNat) 0x00000506#32 r p).outLen = s.dstCap ∧
        (i ≠ .autoEnc → r = 0#32 ∧ p = 0#32) ∧
        (i = .autoEnc → r = (autoEffect s.clsPresent (sourceBytes s)).result ∧
          p = (autoEffect s.clsPresent (sourceBytes s)).sample)

/-- 60_exceptions.md R205, 42_lz77.md R153: LZ.DEC stops with CORRUPT_STREAM at the first token whose offset exceeds the output
before it; that output stays written, also when it fills DST_CAP exactly (R208), and nothing is written for the token. No other
command raises it, RLE.DEC included. -/
def Obligations.CorruptStreamAtFirstBadOffset : Prop :=
  (∀ (s : State) (pre rest out : List Byte) (hi lo len lit : Byte),
    sourceBytes s = pre ++ hi :: lo :: len :: lit :: rest → pre.length % 4 = 0 →
    lzDecode pre = { out := out, corrupt := false } → out.length < hi.toNat * 256 + lo.toNat → Unobstructed s out →
    out.length ≤ s.dstCap.toNat →
      exec .lzDec s = .next (afterCommand s out 0x00000406#32 0#32 0#32)) ∧
    ∀ (s t : State) (i : Instr), exec i s = .next t → statusErrCode t.status = 4 → i = .lzDec

/-- A command whose checks pass and which would read or write a byte memory does not back leaves the engine without a step
(20_memory.md R61, 40_dispatch.md R101). That this is the fault `engineStuck`, and that the whole source is read before any output
(R106, R109), so that a command that would end early is stuck too, is the model's reading (log entry 6, DEDUCED). -/
def Obligations.UnbackedAccessLeavesEngineStuck : Prop :=
  ∀ (s : State) (i : Instr), i.wellFormed s.clsPresent = true → RangesPass (commandRanges s i) →
    (∃ a, (commandRanges s i).src.has a = true ∧ s.platform.admits a = false) ∨
      (IsBufferCommand i ∧ ∃ a, s.dstAddr.toNat ≤ a ∧
        a < s.dstAddr.toNat + min (outputStream s.clsPresent i (sourceBytes s)).length s.dstCap.toNat ∧
        s.platform.admits a = false) →
      exec i s = .fault .engineStuck

/-- 40_dispatch.md R112: every command ends, with BUSY = 0 and DONE = 1, but for the stuck engine; the next command can then be
accepted. -/
def Obligations.EveryCommandEndsIdleOrIsStuck : Prop :=
  ∀ (s : State) (i : Instr),
    exec i s = .fault .engineStuck ∨
      ∃ t, exec i s = .next t ∧ statusBusy t.status = false ∧ statusDone t.status = true

/-! ## Frames -/

/-- 20_memory.md R64: what RLE.ENC, RLE.DEC, LZ.ENC, LZ.DEC and AUTO.ENC leave unchanged when they answer a next state: every
register but OUT_LEN, RESULT, SAMPLE and STATUS, and every byte of memory outside the OUT_LEN bytes from DST_ADDR; OUT_LEN does
not pass DST_CAP, and the bytes written are the command's output stream in order. -/
def Obligations.BufferCommandFrame : Prop :=
  ∀ (s t : State) (i : Instr), IsBufferCommand i → exec i s = .next t →
    t = { s with outLen := t.outLen, result := t.result, sample := t.sample, status := t.status, mem := t.mem } ∧
      t.outLen.toNat ≤ s.dstCap.toNat ∧
      (∀ a, a < s.dstAddr.toNat ∨ s.dstAddr.toNat + t.outLen.toNat ≤ a → t.mem.read a = s.mem.read a) ∧
      ∀ k, k < t.outLen.toNat →
        (outputStream s.clsPresent i (sourceBytes s))[k]? = some (t.mem.read (s.dstAddr.toNat + k))

/-- 20_memory.md R64: CLASSIFY and SUGGEST write no memory and no register but OUT_LEN (0), RESULT, SAMPLE and STATUS. -/
def Obligations.SelectorCommandFrame : Prop :=
  ∀ (s t : State) (i : Instr), i = .classify ∨ i = .suggestText ∨ i = .suggestBinary ∨ i = .suggestMixed →
    exec i s = .next t →
      t = { s with outLen := 0#32, result := t.result, sample := t.sample, status := t.status }

/-! ## Status, result and sample -/

/-- 10_state.md R27, R28, R30, R31: BUSY, DONE, ERR, ERRCODE and the reserved bits of STATUS after reset, after an accepted CMD
write and after a completion. -/
def Obligations.StatusFieldsAreAsSpecified : Prop :=
  State.reset.status = 0#32 ∧
    (∀ (w : Word) (s : State), (acceptCommand w s).status = 0x00000001#32) ∧
    ∀ (s t : State) (i : Instr), exec i s = .next t →
      statusBusy t.status = false ∧ statusDone t.status = true ∧
        (statusErr t.status = true ↔ statusErrCode t.status ≠ 0) ∧ (statusErrCode t.status).toNat ≤ 5 ∧
        t.status.extractLsb' 4 4 = 0 ∧ t.status.extractLsb' 12 20 = 0

/-- 10_state.md R29: TRUNC is cleared at acceptance and reset, and set at completion exactly when RLE.DEC or LZ.DEC completed
with ERRCODE = 0 on a source with trailing bytes that form no whole token. -/
def Obligations.TruncIsSetExactlyForTrailingBytes : Prop :=
  statusTrunc State.reset.status = false ∧
    (∀ (w : Word) (s : State), statusTrunc (acceptCommand w s).status = false) ∧
    ∀ (s t : State) (i : Instr), exec i s = .next t →
      (statusTrunc t.status = true ↔
        statusErrCode t.status = 0 ∧
          ((i = .rleDec ∧ s.srcLen.toNat % 2 = 1) ∨ (i = .lzDec ∧ s.srcLen.toNat % 4 ≠ 0)))

/-- 10_state.md R36, R37, R38, R44: which commands leave OUT_LEN, RESULT and SAMPLE nonzero, and the values their fields never
take. -/
def Obligations.ResultFieldsFollowTheCommandTable : Prop :=
  ∀ (s t : State) (i : Instr), exec i s = .next t →
    (statusErrCode t.status = 1 ∨ statusErrCode t.status = 2 ∨ statusErrCode t.status = 3 →
      t.outLen = 0#32 ∧ t.result = 0#32 ∧ t.sample = 0#32) ∧
    (statusErrCode t.status ≠ 1 → statusErrCode t.status ≠ 2 → statusErrCode t.status ≠ 3 →
      (resultClassValid t.result = true ↔ i = .classify ∨ (i = .autoEnc ∧ s.clsPresent = true)) ∧
      (resultAlgValid t.result = true ↔ i = .suggestText ∨ i = .suggestBinary ∨ i = .suggestMixed ∨ i = .autoEnc)) ∧
    resultClass t.result ≠ 3 ∧ resultAlg t.result ≠ 2 ∧ resultAlg t.result ≠ 3 ∧
    t.result.extractLsb' 3 1 = 0 ∧ t.result.extractLsb' 7 25 = 0 ∧
    (sampleTextCount t.sample).toNat ≤ (sampleSampled t.sample).toNat ∧ (sampleSampled t.sample).toNat ≤ 1024 ∧
    t.sample.extractLsb' 11 5 = 0 ∧ t.sample.extractLsb' 27 5 = 0 ∧
    (i ≠ .classify → ¬ (i = .autoEnc ∧ s.clsPresent = true) → t.sample = 0#32)

/-! ## The RLE codec -/

/-- 41_rle.md R122: a maximal run of `L >= 1` bytes is encoded as `L / 255` tokens of count 255, then one of count `L mod 255`
if that is not 0, and then comes the encoding of what follows. -/
def Obligations.RleRunsAreSplitAt255 : Prop :=
  ∀ (v : Byte) (len : Nat) (rest : List Byte), 1 ≤ len → rest.head? ≠ some v →
    rleEncode (List.replicate len v ++ rest) =
      (List.replicate (len / 255) [0xFF#8, v]).flatten ++
        (if len % 255 = 0 then [] else [BitVec.ofNat 8 (len % 255), v]) ++ rleEncode rest

/-- 30_encoding.md R94: every token of the RLE encoder has a count of 1 to 255, and two adjacent tokens have equal values only
if the first has count 255. -/
def Obligations.RleTokensAreCanonical : Prop :=
  ∀ (inp : List Byte) (j : Nat) (c v : Byte), (rleEncode inp)[2 * j]? = some c → (rleEncode inp)[2 * j + 1]? = some v →
    1 ≤ c.toNat ∧ ((rleEncode inp)[2 * j + 3]? = some v → c = 0xFF#8)

/-- 41_rle.md R123: the encoding has even length, at most twice the input, and exactly twice when and only when no two adjacent
input bytes are equal. -/
def Obligations.RleEncodingLengthBound : Prop :=
  ∀ inp : List Byte, (rleEncode inp).length % 2 = 0 ∧ (rleEncode inp).length ≤ 2 * inp.length ∧
    ((rleEncode inp).length = 2 * inp.length ↔ inp.IsChain (· ≠ ·))

/-- 41_rle.md R129: the decoding's length is the sum of the counts of the whole tokens, at most `255 * floor(n/2)`. -/
def Obligations.RleDecodingLength : Prop :=
  ∀ inp : List Byte,
    (rleDecode inp).length = ((List.range (inp.length / 2)).map fun j => (inp.getD (2 * j) 0#8).toNat).sum ∧
      (rleDecode inp).length ≤ 255 * (inp.length / 2)

/-- 41_rle.md R126, and what R127 says of the output: decoding goes token by token, a count of 0 appends nothing, and a dangling
last byte is dropped. -/
def Obligations.RleDecodesTokenByToken : Prop :=
  ∀ (pre rest : List Byte) (v x : Byte), pre.length % 2 = 0 →
    rleDecode (pre ++ rest) = rleDecode pre ++ rleDecode rest ∧
      rleDecode (pre ++ 0x00#8 :: v :: rest) = rleDecode (pre ++ rest) ∧ rleDecode (pre ++ [x]) = rleDecode pre

/-- 41_rle.md R128: the RLE decoder undoes the encoder, with no trailing byte; on the block, RLE.ENC of the source with DST_CAP at
least twice its length, then RLE.DEC of the output with DST_CAP at least the source's length, puts the source's bytes at the
second destination, with STATUS 0x2 (TRUNC = 0). -/
def Obligations.RleRoundTripOnTheBlock : Prop :=
  (∀ b : List Byte, rleDecode (rleEncode b) = b ∧ rleTrunc (rleEncode b) = false) ∧
  ∀ (s t u : State) (dst cap : Word), Unobstructed s (rleEncode (sourceBytes s)) →
    2 * s.srcLen.toNat ≤ s.dstCap.toNat → exec .rleEnc s = .next t →
    u = { t with srcAddr := t.dstAddr, srcLen := t.outLen, dstAddr := dst, dstCap := cap } →
    s.srcLen.toNat ≤ cap.toNat → Unobstructed u (sourceBytes s) →
      ∃ v, exec .rleDec u = .next v ∧ v.mem.readList dst.toNat s.srcLen.toNat = sourceBytes s ∧
        v.outLen = s.srcLen ∧ v.status = 0x00000002#32

/-! ## The LZ77 codec -/

/-- 42_lz77.md R142: the match length at a candidate is bounded by the lookahead, the end of the input and the current position;
the bytes agree up to it, and it stops only at a bound or at a difference. -/
def Obligations.MatchLengthIsTheLongestAgreement : Prop :=
  ∀ (inp : List Byte) (pos i m : Nat), pos < inp.length → i < pos → m = matchLen inp pos i →
    m ≤ 15 ∧ m ≤ inp.length - pos ∧ m ≤ pos - i ∧ (∀ k, k < m → inp[i + k]? = inp[pos + k]?) ∧
      (m = 15 ∨ m = inp.length - pos ∨ m = pos - i ∨ inp[i + m]? ≠ inp[pos + m]?)

/-- 42_lz77.md R141, R143: the best match is the greatest match length over the candidates `max(0, pos - 4096) <= i < pos`, at
the lowest candidate that reaches it; with no match at all, length and offset are 0. -/
def Obligations.BestMatchIsFirstOfTheLongest : Prop :=
  ∀ (inp : List Byte) (pos : Nat) (b : Match), b = bestMatch inp pos →
    (∀ i, pos - 4096 ≤ i → i < pos → matchLen inp pos i ≤ b.len) ∧ (b.len = 0 → b.off = 0) ∧
      (0 < b.len → 1 ≤ b.off ∧ b.off ≤ 4096 ∧ b.off ≤ pos ∧ matchLen inp pos (pos - b.off) = b.len ∧
        ∀ i, pos - 4096 ≤ i → i < pos - b.off → matchLen inp pos i < b.len)

/-- 30_encoding.md R91, R93, 42_lz77.md R148, R149: the LZ77 encoding is whole tokens, at most one per input byte, each a literal
or a back-reference with `1 <= offset <= 4096` (the first byte the higher one), `3 <= length <= 15`, `length <= offset` and fourth
byte 0. -/
def Obligations.LzTokensHaveTheEncoderShape : Prop :=
  ∀ inp : List Byte, (lzEncode inp).length % 4 = 0 ∧ (lzEncode inp).length ≤ 4 * inp.length ∧
    ∀ (j : Nat) (hi lo len lit : Byte), (lzEncode inp)[4 * j]? = some hi → (lzEncode inp)[4 * j + 1]? = some lo →
      (lzEncode inp)[4 * j + 2]? = some len → (lzEncode inp)[4 * j + 3]? = some lit →
        (hi = 0x00#8 ∧ lo = 0x00#8 ∧ len = 0x00#8) ∨
          (1 ≤ hi.toNat * 256 + lo.toNat ∧ hi.toNat * 256 + lo.toNat ≤ 4096 ∧ 3 ≤ len.toNat ∧ len.toNat ≤ 15 ∧
            len.toNat ≤ hi.toNat * 256 + lo.toNat ∧ lit = 0x00#8)

/-- 42_lz77.md R154, R155: a copy with `1 <= offset <= len(out)` appends exactly `length` bytes, each equal to the byte `offset`
before it, also where the copy reads what it appended; with offset 0 it appends nothing. -/
def Obligations.BackReferenceCopyRepeatsThePattern : Prop :=
  ∀ (out : List Byte) (offset len : Nat),
    (1 ≤ offset → offset ≤ out.length →
      ∃ app : List Byte, copyBytes (out.length - offset) len 0 out = out ++ app ∧ app.length = len ∧
        ∀ k, k < len → (out ++ app)[out.length + k]? = (out ++ app)[out.length + k - offset]?) ∧
      copyBytes out.length len 0 out = out

/-- 30_encoding.md R91, 42_lz77.md R152, R154, R156: decoding goes token by token: a literal token appends its fourth byte; a
back-reference takes its offset from the first two bytes, the higher one first, and ignores the fourth; and one of offset 0 or,
within the output, of length 0 appends nothing. -/
def Obligations.LzDecodesTokenByToken : Prop :=
  ∀ (pre rest out : List Byte) (hi lo len lit lit' : Byte) (offset : Nat), pre.length % 4 = 0 →
    lzDecode pre = { out := out, corrupt := false } → offset = hi.toNat * 256 + lo.toNat →
      lzDecode (pre ++ 0x00#8 :: 0x00#8 :: 0x00#8 :: lit :: rest) = lzDecodeFrom (out ++ [lit]) rest ∧
        (¬ (offset = 0 ∧ len = 0x00#8) →
          lzDecode (pre ++ hi :: lo :: len :: lit :: rest) = lzDecode (pre ++ hi :: lo :: len :: lit' :: rest)) ∧
        (offset ≤ out.length → ¬ (offset = 0 ∧ len = 0x00#8) →
          lzDecode (pre ++ hi :: lo :: len :: lit :: rest) =
            lzDecodeFrom (copyBytes (out.length - offset) len.toNat 0 out) rest) ∧
        (offset ≤ out.length → ¬ (offset = 0 ∧ len = 0x00#8) → offset = 0 ∨ len = 0x00#8 →
          lzDecode (pre ++ hi :: lo :: len :: lit :: rest) = lzDecode (pre ++ rest))

/-- 42_lz77.md R159: the decoding is at most `255 * floor(n/4)` bytes. -/
def Obligations.LzDecodingLengthBound : Prop :=
  ∀ inp : List Byte, (lzDecode inp).out.length ≤ 255 * (inp.length / 4)

/-- 42_lz77.md R158: the LZ77 decoder undoes the encoder, with no corrupt token and no trailing byte; on the block, LZ.ENC of the
source with DST_CAP at least four times its length, then LZ.DEC of the output with DST_CAP at least the source's length, puts
the source's bytes at the second destination, with STATUS 0x2. -/
def Obligations.LzRoundTripOnTheBlock : Prop :=
  (∀ b : List Byte, lzDecode (lzEncode b) = { out := b, corrupt := false } ∧ lzTrunc (lzEncode b) = false) ∧
  ∀ (s t u : State) (dst cap : Word), Unobstructed s (lzEncode (sourceBytes s)) →
    4 * s.srcLen.toNat ≤ s.dstCap.toNat → exec .lzEnc s = .next t →
    u = { t with srcAddr := t.dstAddr, srcLen := t.outLen, dstAddr := dst, dstCap := cap } →
    s.srcLen.toNat ≤ cap.toNat → Unobstructed u (sourceBytes s) →
      ∃ v, exec .lzDec u = .next v ∧ v.mem.readList dst.toNat s.srcLen.toNat = sourceBytes s ∧
        v.outLen = s.srcLen ∧ v.status = 0x00000002#32

/-! ## The spec's loops, with `emit` inside -/

/-- 40_dispatch.md R107, 41_rle.md R120 and R124: the RLE loops as the spec prints them do what the model does, which emits the
whole output of the function. -/
def Obligations.RleLoopsAgreeWithPseudocode : Prop :=
  ∀ (p : Platform) (dst cap : Nat) (inp : List Byte) (m : Memory),
    rleEncodeLoop p dst cap inp inp.length 0 m 0 = emitAll p dst cap m 0 (rleEncode inp) ∧
      rleDecodeLoop p dst cap inp inp.length 0 m 0 = emitAll p dst cap m 0 (rleDecode inp)

/-- 40_dispatch.md R107, 42_lz77.md R146: the LZ77 encoder's loop as the spec prints it does what the model does. -/
def Obligations.LzEncodeLoopAgreesWithPseudocode : Prop :=
  ∀ (p : Platform) (dst cap : Nat) (inp : List Byte) (m : Memory),
    lzEncodeLoop p dst cap inp inp.length 0 m 0 = emitAll p dst cap m 0 (lzEncode inp)

/-- 40_dispatch.md R107, 42_lz77.md R150, 60_exceptions.md R208: the LZ77 decoder's loop as the spec prints it, with `emit` inside
the copy, ends as the model does: the same memory, output and error, whichever of CORRUPT_STREAM and DST_OVERFLOW comes first. -/
def Obligations.LzDecodeLoopAgreesWithPseudocode : Prop :=
  ∀ (p : Platform) (dst cap : Nat) (inp : List Byte) (m : Memory),
    lzDecodeLoop p dst cap inp inp.length 0 m [] =
      match emitAll p dst cap m 0 (lzDecode inp).out with
      | .done m' _ =>
        if (lzDecode inp).corrupt then .corrupt m' (lzDecode inp).out else .ok m' (lzDecode inp).out
      | .overflow m' k => .overflow m' ((lzDecode inp).out.take k)
      | .stuck => .stuck

/-! ## The selector -/

/-- 43_selector.md R173, R174, R175: for a sample of `m >= 1` bytes with `t` text bytes the class of the input is Text exactly when
the ratio is above 0.95, Binary exactly when it is below 0.05, and Mixed otherwise; the empty sample is Binary. -/
def Obligations.ClassFollowsTheExactThresholds : Prop :=
  ∀ (inp : List Byte) (t m : Nat), t = textCount inp → m = sampledCount inp →
    (m = 0 → classify inp = .binary) ∧
      (1 ≤ m →
        (classify inp = .text ↔ (95 : ℚ) / 100 < (t : ℚ) / m) ∧ (classify inp = .binary ↔ (t : ℚ) / m < (5 : ℚ) / 100) ∧
          (classify inp = .mixed ↔ (5 : ℚ) / 100 ≤ (t : ℚ) / m ∧ (t : ℚ) / m ≤ (95 : ℚ) / 100))

/-- 43_selector.md R170, R171, R172: the classifier reads the first 1024 bytes at most, counts as text exactly 0x09, 0x0A, 0x0C,
0x0D and 0x20 to 0x7E, and its counts satisfy `0 <= t <= m <= 1024`. -/
def Obligations.ClassifierCountsTheSample : Prop :=
  (∀ b : Byte, isText b = true ↔
    b = 0x09#8 ∨ b = 0x0A#8 ∨ b = 0x0C#8 ∨ b = 0x0D#8 ∨ (0x20 ≤ b.toNat ∧ b.toNat ≤ 0x7E)) ∧
    ∀ inp rest : List Byte,
      sampledCount inp = min inp.length 1024 ∧ textCount inp ≤ sampledCount inp ∧
        textCount inp = ((inp.take 1024).filter isText).length ∧
        (1024 ≤ inp.length → classify (inp ++ rest) = classify inp ∧ textCount (inp ++ rest) = textCount inp)

/-- 40_dispatch.md R111, 43_selector.md R181: AUTO.ENC writes what RLE.ENC writes on a Text source in a build with the selector,
and what LZ.ENC writes otherwise, with the same OUT_LEN and STATUS. -/
def Obligations.AutoEncAgreesWithTheChosenCodec : Prop :=
  ∀ (s t : State) (i : Instr),
    i = (if s.clsPresent = true ∧ classify (sourceBytes s) = .text then .rleEnc else .lzEnc) → exec i s = .next t →
      ∃ r p, exec .autoEnc s = .next { t with result := r, sample := p }

/-! ## The whole block -/

/-- 10_state.md R42: a command's result depends only on the word, the operand registers and the source bytes (in one build and
with the same bytes backed): two states that agree on these, whatever else they hold, end alike, with the same output; and the
operand registers keep their values. -/
def Obligations.ResultsDependOnlyOnOperandsAndSource : Prop :=
  ∀ (s s' : State) (i : Instr), s.clsPresent = s'.clsPresent → s.platform = s'.platform → s.srcAddr = s'.srcAddr →
    s.srcLen = s'.srcLen → s.dstAddr = s'.dstAddr → s.dstCap = s'.dstCap → sourceBytes s = sourceBytes s' →
      (exec i s = .fault .engineStuck ∧ exec i s' = .fault .engineStuck) ∨
        ∃ t t', exec i s = .next t ∧ exec i s' = .next t' ∧ t.outLen = t'.outLen ∧ t.status = t'.status ∧
          t.result = t'.result ∧ t.sample = t'.sample ∧ t.srcAddr = s.srcAddr ∧ t.srcLen = s.srcLen ∧
          t.dstAddr = s.dstAddr ∧ t.dstCap = s.dstCap ∧
          ∀ k, k < t.outLen.toNat → t.mem.read (s.dstAddr.toNat + k) = t'.mem.read (s.dstAddr.toNat + k)

/-- The invariant holds after reset: STATUS, RESULT and SAMPLE hold legal values (10_state.md R45), and the memory is in canonical
form, which is the model's own form of the byte memory (log entry 1, DESIGN CHOICE). -/
def Obligations.InvariantHoldsAtReset : Prop := StateInv State.reset

/-- From every state with the invariant, a step that answers a next state keeps it: the memory's canonical form, and legal
values of STATUS, RESULT and SAMPLE (10_state.md R25 to R31, R37, R38); the canonical form is the model's own (log entry 1). No
step changes the build or the platform (10_state.md R23). -/
def Obligations.StepKeepsTheInvariant : Prop :=
  ∀ s t : State, StateInv s → step s = .next t → StateInv t ∧ t.clsPresent = s.clsPresent ∧ t.platform = s.platform

/-- 60_exceptions.md R216: a step of one of several blocks leaves every other block as it was, and moves its own block as a block
alone on the memory would (the composition is the model's, log entry 15, and so is its one draw counter, log entry 22). -/
def Obligations.InstancesShareOnlyMemory : Prop :=
  ∀ (sys sys' : System) (k : Nat) (b : State), sys.blocks[k]? = some b → sys.step k = .next sys' →
    (∀ j, j ≠ k → sys'.blocks[j]? = sys.blocks[j]?) ∧
      ∃ t, step { b with mem := sys.mem, draws := sys.draws } = .next t ∧ sys'.mem = t.mem ∧ sys'.draws = t.draws ∧
        (sys'.blocks[k]?).map (fun c => { c with mem := t.mem, draws := t.draws }) = some t

/-- 95_test_vectors.md section 2.8, 40_dispatch.md R113: of two CMD writes with no wait between, the second is lost if the engine
has not stepped, and accepted if it has. -/
def Obligations.SecondCommandWriteHasTwoOutcomes : Prop :=
  ∀ (s t u : State) (w w' : Word) (a : RegAccess) (rest : List HostMove), s.busy = false →
    a = { addr := s.platform.regBase + 0x04, width := 4 } → t = acceptCommand w s →
    (step { t with inputs := .write a w' :: rest } = .next { t with inputs := rest }) ∧
      (engineStep t = .next u →
        ∃ x, step { u with inputs := .write a w' :: rest } = .next x ∧ x.cmdLatch = w' ∧ x.status = 0x00000001#32 ∧
          x.mem = u.mem)
end

