-- ==== Sys2Proof/Laws/State.lean ====
section
/-! SUPPORT. One lemma per field of State per update: what each update leaves in each field. -/

namespace Sys2Proof.Machine

/-! ## complete -/

@[simp] theorem complete_clsPresent (code : ErrCode) (len : Nat) (trunc : Bool) (r p : Word) (s : State) : (complete code len trunc r p s).clsPresent = s.clsPresent := rfl
@[simp] theorem complete_platform (code : ErrCode) (len : Nat) (trunc : Bool) (r p : Word) (s : State) : (complete code len trunc r p s).platform = s.platform := rfl
@[simp] theorem complete_cmdLatch (code : ErrCode) (len : Nat) (trunc : Bool) (r p : Word) (s : State) : (complete code len trunc r p s).cmdLatch = s.cmdLatch := rfl
@[simp] theorem complete_status (code : ErrCode) (len : Nat) (trunc : Bool) (r p : Word) (s : State) : (complete code len trunc r p s).status = completionStatus code trunc := rfl
@[simp] theorem complete_srcAddr (code : ErrCode) (len : Nat) (trunc : Bool) (r p : Word) (s : State) : (complete code len trunc r p s).srcAddr = s.srcAddr := rfl
@[simp] theorem complete_srcLen (code : ErrCode) (len : Nat) (trunc : Bool) (r p : Word) (s : State) : (complete code len trunc r p s).srcLen = s.srcLen := rfl
@[simp] theorem complete_dstAddr (code : ErrCode) (len : Nat) (trunc : Bool) (r p : Word) (s : State) : (complete code len trunc r p s).dstAddr = s.dstAddr := rfl
@[simp] theorem complete_dstCap (code : ErrCode) (len : Nat) (trunc : Bool) (r p : Word) (s : State) : (complete code len trunc r p s).dstCap = s.dstCap := rfl
@[simp] theorem complete_outLen (code : ErrCode) (len : Nat) (trunc : Bool) (r p : Word) (s : State) : (complete code len trunc r p s).outLen = BitVec.ofNat 32 len := rfl
@[simp] theorem complete_result (code : ErrCode) (len : Nat) (trunc : Bool) (r p : Word) (s : State) : (complete code len trunc r p s).result = r := rfl
@[simp] theorem complete_sample (code : ErrCode) (len : Nat) (trunc : Bool) (r p : Word) (s : State) : (complete code len trunc r p s).sample = p := rfl
@[simp] theorem complete_mem (code : ErrCode) (len : Nat) (trunc : Bool) (r p : Word) (s : State) : (complete code len trunc r p s).mem = s.mem := rfl
@[simp] theorem complete_claims (code : ErrCode) (len : Nat) (trunc : Bool) (r p : Word) (s : State) : (complete code len trunc r p s).claims = s.claims := rfl
@[simp] theorem complete_inputs (code : ErrCode) (len : Nat) (trunc : Bool) (r p : Word) (s : State) : (complete code len trunc r p s).inputs = s.inputs := rfl
@[simp] theorem complete_reply (code : ErrCode) (len : Nat) (trunc : Bool) (r p : Word) (s : State) : (complete code len trunc r p s).reply = s.reply := rfl
@[simp] theorem complete_draws (code : ErrCode) (len : Nat) (trunc : Bool) (r p : Word) (s : State) : (complete code len trunc r p s).draws = s.draws := rfl

/-! ## raiseError -/

@[simp] theorem raiseError_clsPresent (code : ErrCode) (len : Nat) (r p : Word) (s : State) : (raiseError code len r p s).clsPresent = s.clsPresent := rfl
@[simp] theorem raiseError_platform (code : ErrCode) (len : Nat) (r p : Word) (s : State) : (raiseError code len r p s).platform = s.platform := rfl
@[simp] theorem raiseError_cmdLatch (code : ErrCode) (len : Nat) (r p : Word) (s : State) : (raiseError code len r p s).cmdLatch = s.cmdLatch := rfl
@[simp] theorem raiseError_status (code : ErrCode) (len : Nat) (r p : Word) (s : State) : (raiseError code len r p s).status = completionStatus code false := rfl
@[simp] theorem raiseError_srcAddr (code : ErrCode) (len : Nat) (r p : Word) (s : State) : (raiseError code len r p s).srcAddr = s.srcAddr := rfl
@[simp] theorem raiseError_srcLen (code : ErrCode) (len : Nat) (r p : Word) (s : State) : (raiseError code len r p s).srcLen = s.srcLen := rfl
@[simp] theorem raiseError_dstAddr (code : ErrCode) (len : Nat) (r p : Word) (s : State) : (raiseError code len r p s).dstAddr = s.dstAddr := rfl
@[simp] theorem raiseError_dstCap (code : ErrCode) (len : Nat) (r p : Word) (s : State) : (raiseError code len r p s).dstCap = s.dstCap := rfl
@[simp] theorem raiseError_outLen (code : ErrCode) (len : Nat) (r p : Word) (s : State) : (raiseError code len r p s).outLen = BitVec.ofNat 32 len := rfl
@[simp] theorem raiseError_result (code : ErrCode) (len : Nat) (r p : Word) (s : State) : (raiseError code len r p s).result = r := rfl
@[simp] theorem raiseError_sample (code : ErrCode) (len : Nat) (r p : Word) (s : State) : (raiseError code len r p s).sample = p := rfl
@[simp] theorem raiseError_mem (code : ErrCode) (len : Nat) (r p : Word) (s : State) : (raiseError code len r p s).mem = s.mem := rfl
@[simp] theorem raiseError_claims (code : ErrCode) (len : Nat) (r p : Word) (s : State) : (raiseError code len r p s).claims = s.claims := rfl
@[simp] theorem raiseError_inputs (code : ErrCode) (len : Nat) (r p : Word) (s : State) : (raiseError code len r p s).inputs = s.inputs := rfl
@[simp] theorem raiseError_reply (code : ErrCode) (len : Nat) (r p : Word) (s : State) : (raiseError code len r p s).reply = s.reply := rfl
@[simp] theorem raiseError_draws (code : ErrCode) (len : Nat) (r p : Word) (s : State) : (raiseError code len r p s).draws = s.draws := rfl

/-! ## raiseEarly -/

@[simp] theorem raiseEarly_clsPresent (code : ErrCode) (s : State) : (raiseEarly code s).clsPresent = s.clsPresent := rfl
@[simp] theorem raiseEarly_platform (code : ErrCode) (s : State) : (raiseEarly code s).platform = s.platform := rfl
@[simp] theorem raiseEarly_cmdLatch (code : ErrCode) (s : State) : (raiseEarly code s).cmdLatch = s.cmdLatch := rfl
@[simp] theorem raiseEarly_status (code : ErrCode) (s : State) : (raiseEarly code s).status = completionStatus code false := rfl
@[simp] theorem raiseEarly_srcAddr (code : ErrCode) (s : State) : (raiseEarly code s).srcAddr = s.srcAddr := rfl
@[simp] theorem raiseEarly_srcLen (code : ErrCode) (s : State) : (raiseEarly code s).srcLen = s.srcLen := rfl
@[simp] theorem raiseEarly_dstAddr (code : ErrCode) (s : State) : (raiseEarly code s).dstAddr = s.dstAddr := rfl
@[simp] theorem raiseEarly_dstCap (code : ErrCode) (s : State) : (raiseEarly code s).dstCap = s.dstCap := rfl
@[simp] theorem raiseEarly_outLen (code : ErrCode) (s : State) : (raiseEarly code s).outLen = 0#32 := rfl
@[simp] theorem raiseEarly_result (code : ErrCode) (s : State) : (raiseEarly code s).result = 0#32 := rfl
@[simp] theorem raiseEarly_sample (code : ErrCode) (s : State) : (raiseEarly code s).sample = 0#32 := rfl
@[simp] theorem raiseEarly_mem (code : ErrCode) (s : State) : (raiseEarly code s).mem = s.mem := rfl
@[simp] theorem raiseEarly_claims (code : ErrCode) (s : State) : (raiseEarly code s).claims = s.claims := rfl
@[simp] theorem raiseEarly_inputs (code : ErrCode) (s : State) : (raiseEarly code s).inputs = s.inputs := rfl
@[simp] theorem raiseEarly_reply (code : ErrCode) (s : State) : (raiseEarly code s).reply = s.reply := rfl
@[simp] theorem raiseEarly_draws (code : ErrCode) (s : State) : (raiseEarly code s).draws = s.draws := rfl

/-! ## acceptCommand -/

@[simp] theorem acceptCommand_clsPresent (w : Word) (s : State) : (acceptCommand w s).clsPresent = s.clsPresent := rfl
@[simp] theorem acceptCommand_platform (w : Word) (s : State) : (acceptCommand w s).platform = s.platform := rfl
@[simp] theorem acceptCommand_cmdLatch (w : Word) (s : State) : (acceptCommand w s).cmdLatch = w := rfl
@[simp] theorem acceptCommand_status (w : Word) (s : State) : (acceptCommand w s).status = acceptedStatus := rfl
@[simp] theorem acceptCommand_srcAddr (w : Word) (s : State) : (acceptCommand w s).srcAddr = s.srcAddr := rfl
@[simp] theorem acceptCommand_srcLen (w : Word) (s : State) : (acceptCommand w s).srcLen = s.srcLen := rfl
@[simp] theorem acceptCommand_dstAddr (w : Word) (s : State) : (acceptCommand w s).dstAddr = s.dstAddr := rfl
@[simp] theorem acceptCommand_dstCap (w : Word) (s : State) : (acceptCommand w s).dstCap = s.dstCap := rfl
@[simp] theorem acceptCommand_outLen (w : Word) (s : State) : (acceptCommand w s).outLen = s.outLen := rfl
@[simp] theorem acceptCommand_result (w : Word) (s : State) : (acceptCommand w s).result = s.result := rfl
@[simp] theorem acceptCommand_sample (w : Word) (s : State) : (acceptCommand w s).sample = s.sample := rfl
@[simp] theorem acceptCommand_mem (w : Word) (s : State) : (acceptCommand w s).mem = s.mem := rfl
@[simp] theorem acceptCommand_claims (w : Word) (s : State) : (acceptCommand w s).claims = wordRanges s w :: s.claims := rfl
@[simp] theorem acceptCommand_inputs (w : Word) (s : State) : (acceptCommand w s).inputs = s.inputs := rfl
@[simp] theorem acceptCommand_reply (w : Word) (s : State) : (acceptCommand w s).reply = s.reply := rfl
@[simp] theorem acceptCommand_draws (w : Word) (s : State) : (acceptCommand w s).draws = s.draws := rfl

/-! ## readMove -/

@[simp] theorem readMove_clsPresent (r : Reg) (s : State) : (readMove r s).clsPresent = s.clsPresent := rfl
@[simp] theorem readMove_platform (r : Reg) (s : State) : (readMove r s).platform = s.platform := rfl
@[simp] theorem readMove_cmdLatch (r : Reg) (s : State) : (readMove r s).cmdLatch = s.cmdLatch := rfl
@[simp] theorem readMove_status (r : Reg) (s : State) : (readMove r s).status = s.status := rfl
@[simp] theorem readMove_srcAddr (r : Reg) (s : State) : (readMove r s).srcAddr = s.srcAddr := rfl
@[simp] theorem readMove_srcLen (r : Reg) (s : State) : (readMove r s).srcLen = s.srcLen := rfl
@[simp] theorem readMove_dstAddr (r : Reg) (s : State) : (readMove r s).dstAddr = s.dstAddr := rfl
@[simp] theorem readMove_dstCap (r : Reg) (s : State) : (readMove r s).dstCap = s.dstCap := rfl
@[simp] theorem readMove_outLen (r : Reg) (s : State) : (readMove r s).outLen = s.outLen := rfl
@[simp] theorem readMove_result (r : Reg) (s : State) : (readMove r s).result = s.result := rfl
@[simp] theorem readMove_sample (r : Reg) (s : State) : (readMove r s).sample = s.sample := rfl
@[simp] theorem readMove_mem (r : Reg) (s : State) : (readMove r s).mem = s.mem := rfl
@[simp] theorem readMove_claims (r : Reg) (s : State) : (readMove r s).claims = claimsAfterRead s r := rfl
@[simp] theorem readMove_inputs (r : Reg) (s : State) : (readMove r s).inputs = s.inputs := rfl
@[simp] theorem readMove_reply (r : Reg) (s : State) : (readMove r s).reply = some (.reg (readReg s r)) := rfl
@[simp] theorem readMove_draws (r : Reg) (s : State) : (readMove r s).draws = s.draws + 1 := rfl

/-! ## storeMove -/

@[simp] theorem storeMove_clsPresent (a : Word) (v : Byte) (s : State) : (storeMove a v s).clsPresent = s.clsPresent := rfl
@[simp] theorem storeMove_platform (a : Word) (v : Byte) (s : State) : (storeMove a v s).platform = s.platform := rfl
@[simp] theorem storeMove_cmdLatch (a : Word) (v : Byte) (s : State) : (storeMove a v s).cmdLatch = s.cmdLatch := rfl
@[simp] theorem storeMove_status (a : Word) (v : Byte) (s : State) : (storeMove a v s).status = s.status := rfl
@[simp] theorem storeMove_srcAddr (a : Word) (v : Byte) (s : State) : (storeMove a v s).srcAddr = s.srcAddr := rfl
@[simp] theorem storeMove_srcLen (a : Word) (v : Byte) (s : State) : (storeMove a v s).srcLen = s.srcLen := rfl
@[simp] theorem storeMove_dstAddr (a : Word) (v : Byte) (s : State) : (storeMove a v s).dstAddr = s.dstAddr := rfl
@[simp] theorem storeMove_dstCap (a : Word) (v : Byte) (s : State) : (storeMove a v s).dstCap = s.dstCap := rfl
@[simp] theorem storeMove_outLen (a : Word) (v : Byte) (s : State) : (storeMove a v s).outLen = s.outLen := rfl
@[simp] theorem storeMove_result (a : Word) (v : Byte) (s : State) : (storeMove a v s).result = s.result := rfl
@[simp] theorem storeMove_sample (a : Word) (v : Byte) (s : State) : (storeMove a v s).sample = s.sample := rfl
@[simp] theorem storeMove_mem (a : Word) (v : Byte) (s : State) : (storeMove a v s).mem = s.mem.write a.toNat v := rfl
@[simp] theorem storeMove_claims (a : Word) (v : Byte) (s : State) : (storeMove a v s).claims = s.claims := rfl
@[simp] theorem storeMove_inputs (a : Word) (v : Byte) (s : State) : (storeMove a v s).inputs = s.inputs := rfl
@[simp] theorem storeMove_reply (a : Word) (v : Byte) (s : State) : (storeMove a v s).reply = s.reply := rfl
@[simp] theorem storeMove_draws (a : Word) (v : Byte) (s : State) : (storeMove a v s).draws = s.draws := rfl

/-! ## loadMove -/

@[simp] theorem loadMove_clsPresent (a : Word) (s : State) : (loadMove a s).clsPresent = s.clsPresent := rfl
@[simp] theorem loadMove_platform (a : Word) (s : State) : (loadMove a s).platform = s.platform := rfl
@[simp] theorem loadMove_cmdLatch (a : Word) (s : State) : (loadMove a s).cmdLatch = s.cmdLatch := rfl
@[simp] theorem loadMove_status (a : Word) (s : State) : (loadMove a s).status = s.status := rfl
@[simp] theorem loadMove_srcAddr (a : Word) (s : State) : (loadMove a s).srcAddr = s.srcAddr := rfl
@[simp] theorem loadMove_srcLen (a : Word) (s : State) : (loadMove a s).srcLen = s.srcLen := rfl
@[simp] theorem loadMove_dstAddr (a : Word) (s : State) : (loadMove a s).dstAddr = s.dstAddr := rfl
@[simp] theorem loadMove_dstCap (a : Word) (s : State) : (loadMove a s).dstCap = s.dstCap := rfl
@[simp] theorem loadMove_outLen (a : Word) (s : State) : (loadMove a s).outLen = s.outLen := rfl
@[simp] theorem loadMove_result (a : Word) (s : State) : (loadMove a s).result = s.result := rfl
@[simp] theorem loadMove_sample (a : Word) (s : State) : (loadMove a s).sample = s.sample := rfl
@[simp] theorem loadMove_mem (a : Word) (s : State) : (loadMove a s).mem = s.mem := rfl
@[simp] theorem loadMove_claims (a : Word) (s : State) : (loadMove a s).claims = s.claims := rfl
@[simp] theorem loadMove_inputs (a : Word) (s : State) : (loadMove a s).inputs = s.inputs := rfl
@[simp] theorem loadMove_reply (a : Word) (s : State) : (loadMove a s).reply = some (.byte (s.mem.read a.toNat)) := rfl
@[simp] theorem loadMove_draws (a : Word) (s : State) : (loadMove a s).draws = s.draws := rfl

/-! ## resetMove -/

@[simp] theorem resetMove_clsPresent (s : State) : (resetMove s).clsPresent = s.clsPresent := rfl
@[simp] theorem resetMove_platform (s : State) : (resetMove s).platform = s.platform := rfl
@[simp] theorem resetMove_cmdLatch (s : State) : (resetMove s).cmdLatch = Config.resetLatch s.draws := rfl
@[simp] theorem resetMove_status (s : State) : (resetMove s).status = 0#32 := rfl
@[simp] theorem resetMove_srcAddr (s : State) : (resetMove s).srcAddr = 0#32 := rfl
@[simp] theorem resetMove_srcLen (s : State) : (resetMove s).srcLen = 0#32 := rfl
@[simp] theorem resetMove_dstAddr (s : State) : (resetMove s).dstAddr = 0#32 := rfl
@[simp] theorem resetMove_dstCap (s : State) : (resetMove s).dstCap = 0#32 := rfl
@[simp] theorem resetMove_outLen (s : State) : (resetMove s).outLen = 0#32 := rfl
@[simp] theorem resetMove_result (s : State) : (resetMove s).result = 0#32 := rfl
@[simp] theorem resetMove_sample (s : State) : (resetMove s).sample = 0#32 := rfl
@[simp] theorem resetMove_mem (s : State) : (resetMove s).mem = memoryAfterReset s := rfl
@[simp] theorem resetMove_claims (s : State) : (resetMove s).claims = [] := rfl
@[simp] theorem resetMove_inputs (s : State) : (resetMove s).inputs = s.inputs := rfl
@[simp] theorem resetMove_reply (s : State) : (resetMove s).reply = s.reply := rfl
@[simp] theorem resetMove_draws (s : State) : (resetMove s).draws = s.draws + 1 := rfl

/-! ## The fields of STATUS's values, and the engine's phase -/

@[simp] theorem statusBusy_zero : statusBusy 0#32 = false := by decide

@[simp] theorem statusBusy_acceptedStatus : statusBusy acceptedStatus = true := by decide

@[simp] theorem statusTrunc_acceptedStatus : statusTrunc acceptedStatus = false := by decide

@[simp] theorem statusBusy_completionStatus (code : ErrCode) (trunc : Bool) :
    statusBusy (completionStatus code trunc) = false := by cases code <;> cases trunc <;> decide

@[simp] theorem statusDone_completionStatus (code : ErrCode) (trunc : Bool) :
    statusDone (completionStatus code trunc) = true := by cases code <;> cases trunc <;> decide

@[simp] theorem statusErr_completionStatus (code : ErrCode) (trunc : Bool) :
    statusErr (completionStatus code trunc) = decide (code ≠ .none) := by cases code <;> cases trunc <;> decide

@[simp] theorem statusTrunc_completionStatus (code : ErrCode) (trunc : Bool) :
    statusTrunc (completionStatus code trunc) = (trunc && decide (code = .none)) := by
  cases code <;> cases trunc <;> decide

@[simp] theorem statusErrCode_completionStatus (code : ErrCode) (trunc : Bool) :
    statusErrCode (completionStatus code trunc) = code.bits := by cases code <;> cases trunc <;> decide

@[simp] theorem acceptCommand_busy (w : Word) (s : State) : (acceptCommand w s).busy = true := statusBusy_acceptedStatus

@[simp] theorem complete_busy (code : ErrCode) (len : Nat) (trunc : Bool) (r p : Word) (s : State) :
    (complete code len trunc r p s).busy = false := statusBusy_completionStatus code trunc

@[simp] theorem raiseEarly_busy (code : ErrCode) (s : State) : (raiseEarly code s).busy = false :=
  statusBusy_completionStatus code false

@[simp] theorem resetMove_busy (s : State) : (resetMove s).busy = false := statusBusy_zero

/-! ## The values STATUS, RESULT and SAMPLE take (95_test_vectors.md, Conventions) -/

theorem completionStatus_none : completionStatus .none false = 0x00000002#32 := by decide

theorem completionStatus_none_trunc : completionStatus .none true = 0x0000000A#32 := by decide

theorem completionStatus_illegalCmd (trunc : Bool) : completionStatus .illegalCmd trunc = 0x00000106#32 := by
  cases trunc <;> decide

theorem completionStatus_range (trunc : Bool) : completionStatus .range trunc = 0x00000206#32 := by
  cases trunc <;> decide

theorem completionStatus_overlap (trunc : Bool) : completionStatus .overlap trunc = 0x00000306#32 := by
  cases trunc <;> decide

theorem completionStatus_corruptStream (trunc : Bool) : completionStatus .corruptStream trunc = 0x00000406#32 := by
  cases trunc <;> decide

theorem completionStatus_dstOverflow (trunc : Bool) : completionStatus .dstOverflow trunc = 0x00000506#32 := by
  cases trunc <;> decide

@[simp] theorem algResult_rle : algResult .rle = 0x00000040#32 := by decide

@[simp] theorem algResult_lz : algResult .lz = 0x00000050#32 := by decide

@[simp] theorem classResult_text : classResult .text = 0x00000004#32 := by decide

@[simp] theorem classResult_binary : classResult .binary = 0x00000005#32 := by decide

@[simp] theorem classResult_mixed : classResult .mixed = 0x00000006#32 := by decide

@[simp] theorem autoResult_text : autoResult .rle .text = 0x00000044#32 := by decide

@[simp] theorem autoResult_binary : autoResult .lz .binary = 0x00000055#32 := by decide

@[simp] theorem autoResult_mixed : autoResult .lz .mixed = 0x00000056#32 := by decide

/-- SAMPLE as a number (43_selector.md R176). -/
theorem sampleWord_eq_ofNat {t m : Nat} (ht : t ≤ 1024) (hm : m ≤ 1024) :
    sampleWord t m = BitVec.ofNat 32 (t * 65536 + m) := by
  apply BitVec.eq_of_toNat_eq
  simp only [sampleWord, BitVec.toNat_append, BitVec.toNat_ofNat]
  rw [Nat.mod_eq_of_lt (show t < 2 ^ 11 by omega), Nat.mod_eq_of_lt (show m < 2 ^ 11 by omega),
    ← Nat.shiftLeft_add_eq_or_of_lt (by omega), ← Nat.shiftLeft_add_eq_or_of_lt (by omega),
    ← Nat.shiftLeft_add_eq_or_of_lt (by omega)]
  simp only [Nat.shiftLeft_eq]
  omega

end Sys2Proof.Machine
end

