-- ==== Sys2Proof/Laws/Memory.lean ====
section
/-! SUPPORT. The laws of the byte memory: reads after writes, and that every operation keeps the canonical form. -/

namespace Sys2Proof.Machine

/-! ## One byte -/

@[simp] theorem Memory.read_nil (a : Nat) : Memory.read [] a = Memory.unlisted := rfl

theorem Memory.read_erase_same (m : Memory) (a : Nat) : (m.erase a).read a = Memory.unlisted := by
  induction m with
  | nil => rfl
  | cons c m ih => by_cases h : c.1 = a <;> simp_all [Memory.erase, Memory.read]

theorem Memory.read_erase_other (m : Memory) {a b : Nat} (h : b ≠ a) : (m.erase a).read b = m.read b := by
  induction m with
  | nil => rfl
  | cons c m ih =>
    by_cases hc : c.1 = a
    · have hb : c.1 ≠ b := fun hb => h (hb ▸ hc)
      simp_all [Memory.erase, Memory.read]
    · by_cases hb : c.1 = b <;> simp_all [Memory.erase, Memory.read]

theorem Memory.read_insert_same (m : Memory) (a : Nat) (v : Byte) (h : ∀ c ∈ m, c.1 ≠ a) :
    (m.insert a v).read a = v := by
  induction m with
  | nil => simp [Memory.insert, Memory.read]
  | cons c m ih =>
    have hc : c.1 ≠ a := h c (by simp)
    simp only [Memory.insert]
    split
    · simp [Memory.read]
    · simp only [Memory.read, hc, if_false]
      exact ih fun d hd => h d (by simp [hd])

theorem Memory.read_insert_other (m : Memory) {a b : Nat} (v : Byte) (h : b ≠ a) :
    (m.insert a v).read b = m.read b := by
  induction m with
  | nil => simp [Memory.insert, Memory.read, Ne.symm h]
  | cons c m ih =>
    simp only [Memory.insert]
    split
    · simp [Memory.read, Ne.symm h]
    · simp only [Memory.read, ih]

theorem Memory.erase_keys (m : Memory) (a : Nat) : ∀ c ∈ m.erase a, c.1 ≠ a := by
  intro c hc
  simpa using (List.mem_filter.mp hc).2

/-- A byte read back after it was written (20_memory.md R62). -/
@[simp] theorem Memory.read_write_same (m : Memory) (a : Nat) (v : Byte) : (m.write a v).read a = v := by
  unfold Memory.write
  split
  · next h => rw [Memory.read_erase_same, h]
  · exact Memory.read_insert_same _ _ _ (Memory.erase_keys m a)

/-- A write changes no other address (20_memory.md R62). -/
theorem Memory.read_write_other (m : Memory) {a b : Nat} (v : Byte) (h : b ≠ a) : (m.write a v).read b = m.read b := by
  unfold Memory.write
  split
  · exact Memory.read_erase_other m h
  · rw [Memory.read_insert_other _ _ h, Memory.read_erase_other m h]

theorem Memory.read_write (m : Memory) (a b : Nat) (v : Byte) : (m.write a v).read b = if b = a then v else m.read b := by
  by_cases h : b = a
  · subst h; simp
  · simp [h, Memory.read_write_other m v h]

/-! ## The canonical form -/

theorem Memory.wfFrom_mono {lo hi : Nat} {m : Memory} (h : Memory.wfFrom hi m = true) (hle : lo ≤ hi) :
    Memory.wfFrom lo m = true := by
  cases m with
  | nil => rfl
  | cons c m =>
    simp only [Memory.wfFrom, Bool.and_eq_true, decide_eq_true_eq] at h ⊢
    exact ⟨⟨⟨hle.trans h.1.1.1, h.1.1.2⟩, h.1.2⟩, h.2⟩

theorem Memory.wfFrom_erase {lo : Nat} {m : Memory} (a : Nat) (h : Memory.wfFrom lo m = true) :
    Memory.wfFrom lo (m.erase a) = true := by
  induction m generalizing lo with
  | nil => rfl
  | cons c m ih =>
    obtain ⟨x, w⟩ := c
    simp only [Memory.wfFrom, Bool.and_eq_true, decide_eq_true_eq] at h
    have ih' := ih h.2
    by_cases hx : x = a
    · simpa [Memory.erase, hx] using Memory.wfFrom_mono ih' (by omega)
    · have : Memory.erase ((x, w) :: m) a = (x, w) :: Memory.erase m a := by simp [Memory.erase, hx]
      rw [this]
      simp only [Memory.wfFrom, Bool.and_eq_true, decide_eq_true_eq]
      exact ⟨h.1, ih'⟩

theorem Memory.wfFrom_insert {lo : Nat} {m : Memory} {a : Nat} {v : Byte} (h : Memory.wfFrom lo m = true)
    (hlo : lo ≤ a) (ha : a < addressLimit) (hv : v ≠ Memory.unlisted) (hm : ∀ c ∈ m, c.1 ≠ a) :
    Memory.wfFrom lo (m.insert a v) = true := by
  induction m generalizing lo with
  | nil => simp [Memory.insert, Memory.wfFrom, hlo, ha, hv]
  | cons c m ih =>
    obtain ⟨x, w⟩ := c
    have hx : x ≠ a := hm (x, w) (by simp)
    simp only [Memory.wfFrom, Bool.and_eq_true, decide_eq_true_eq] at h
    simp only [Memory.insert]
    split
    · simp only [Memory.wfFrom, Bool.and_eq_true, decide_eq_true_eq]
      refine ⟨⟨⟨hlo, ha⟩, hv⟩, ⟨⟨by omega, h.1.1.2⟩, h.1.2⟩, h.2⟩
    · simp only [Memory.wfFrom, Bool.and_eq_true, decide_eq_true_eq]
      exact ⟨h.1, ih h.2 (by omega) fun d hd => hm d (by simp [hd])⟩

/-- A write to an address of the memory keeps the canonical form. -/
theorem Memory.wf_write {m : Memory} {a : Nat} (v : Byte) (h : m.wf = true) (ha : a < addressLimit) :
    (m.write a v).wf = true := by
  unfold Memory.write
  split
  · exact Memory.wfFrom_erase a h
  · next hv => exact Memory.wfFrom_insert (Memory.wfFrom_erase a h) (Nat.zero_le a) ha hv (Memory.erase_keys m a)

theorem Memory.wfFrom_read_lt {lo a : Nat} {m : Memory} (h : Memory.wfFrom lo m = true) (ha : a < lo) :
    m.read a = Memory.unlisted := by
  induction m generalizing lo with
  | nil => rfl
  | cons c m ih =>
    simp only [Memory.wfFrom, Bool.and_eq_true, decide_eq_true_eq] at h
    have hc : c.1 ≠ a := by omega
    simp only [Memory.read, hc, if_false]
    exact ih h.2 (by omega)

theorem Memory.wfFrom_ext {lo : Nat} {m m' : Memory} (h : Memory.wfFrom lo m = true) (h' : Memory.wfFrom lo m' = true)
    (heq : ∀ a, m.read a = m'.read a) : m = m' := by
  induction m generalizing lo m' with
  | nil =>
    cases m' with
    | nil => rfl
    | cons c m' =>
      simp only [Memory.wfFrom, Bool.and_eq_true, decide_eq_true_eq] at h'
      exact absurd (by simpa [Memory.read] using (heq c.1).symm) h'.1.2
  | cons c m ih =>
    obtain ⟨x, w⟩ := c
    simp only [Memory.wfFrom, Bool.and_eq_true, decide_eq_true_eq] at h
    cases m' with
    | nil => exact absurd (by simpa [Memory.read] using heq x) h.1.2
    | cons d m' =>
      obtain ⟨y, u⟩ := d
      simp only [Memory.wfFrom, Bool.and_eq_true, decide_eq_true_eq] at h'
      have hxy : x = y := by
        rcases Nat.lt_trichotomy x y with hlt | he | hlt
        · have h1 := heq x
          have h2 : Memory.read m' x = Memory.unlisted := Memory.wfFrom_read_lt h'.2 (by omega)
          simp only [Memory.read, if_true, show y ≠ x by omega, if_false, h2] at h1
          exact absurd h1 h.1.2
        · exact he
        · have h1 := heq y
          have h2 : Memory.read m y = Memory.unlisted := Memory.wfFrom_read_lt h.2 (by omega)
          simp only [Memory.read, if_true, show x ≠ y by omega, if_false, h2] at h1
          exact absurd h1.symm h'.1.2
      subst hxy
      have hwu : w = u := by simpa [Memory.read] using heq x
      subst hwu
      have hrest : m = m' := by
        refine ih h.2 h'.2 fun a => ?_
        by_cases ha : x = a
        · subst ha
          rw [Memory.wfFrom_read_lt h.2 (by omega), Memory.wfFrom_read_lt h'.2 (by omega)]
        · simpa [Memory.read, ha] using heq a
      rw [hrest]

/-- Equal reads of two memories in canonical form: equal data. -/
theorem Memory.wf_ext {m m' : Memory} (h : m.wf = true) (h' : m'.wf = true) (heq : ∀ a, m.read a = m'.read a) : m = m' :=
  Memory.wfFrom_ext h h' heq

/-! ## Lists of bytes -/

@[simp] theorem Memory.writeList_nil (m : Memory) (a : Nat) : m.writeList a [] = m := rfl

theorem Memory.writeList_append (m : Memory) (a : Nat) (xs ys : List Byte) :
    m.writeList a (xs ++ ys) = (m.writeList a xs).writeList (a + xs.length) ys := by
  induction xs generalizing m a with
  | nil => rfl
  | cons x xs ih =>
    simp only [List.cons_append, Memory.writeList, List.length_cons, ih]
    rw [show a + 1 + xs.length = a + (xs.length + 1) by omega]

/-- Outside the written addresses nothing changes (20_memory.md R64). -/
theorem Memory.read_writeList_outside (m : Memory) {a b : Nat} (vs : List Byte) (h : b < a ∨ a + vs.length ≤ b) :
    (m.writeList a vs).read b = m.read b := by
  induction vs generalizing m a with
  | nil => rfl
  | cons v vs ih =>
    simp only [List.length_cons] at h
    simp only [Memory.writeList]
    rw [ih _ (by omega), Memory.read_write_other _ _ (by omega)]

/-- The written bytes read back in order (20_memory.md R64). -/
theorem Memory.read_writeList_inside (m : Memory) (a k : Nat) (vs : List Byte) (h : k < vs.length) :
    (m.writeList a vs).read (a + k) = vs[k] := by
  induction vs generalizing m a k with
  | nil => simp at h
  | cons v vs ih =>
    simp only [Memory.writeList]
    cases k with
    | zero =>
      rw [Memory.read_writeList_outside _ _ (by omega)]
      simp
    | succ k =>
      have := ih (m.write a v) (a + 1) k (by simpa using h)
      rw [show a + (k + 1) = a + 1 + k by omega, this]
      simp

theorem Memory.wf_writeList {m : Memory} {a : Nat} (vs : List Byte) (h : m.wf = true) (ha : a + vs.length ≤ addressLimit) :
    (m.writeList a vs).wf = true := by
  induction vs generalizing m a with
  | nil => exact h
  | cons v vs ih =>
    simp only [List.length_cons] at ha
    exact ih (Memory.wf_write v h (by omega)) (by omega)

@[simp] theorem Memory.length_readList (m : Memory) (a n : Nat) : (m.readList a n).length = n := by
  induction n generalizing a with
  | zero => rfl
  | succ n ih => simp [Memory.readList, ih]

theorem Memory.getElem_readList (m : Memory) (a n k : Nat) (h : k < (m.readList a n).length) :
    (m.readList a n)[k] = m.read (a + k) := by
  induction n generalizing a k with
  | zero => simp [Memory.readList] at h
  | succ n ih =>
    cases k with
    | zero => simp [Memory.readList]
    | succ k =>
      simp only [Memory.readList, List.getElem_cons_succ]
      rw [ih, show a + 1 + k = a + (k + 1) by omega]

theorem Memory.readList_congr {m m' : Memory} {a n : Nat} (h : ∀ b, a ≤ b → b < a + n → m.read b = m'.read b) :
    m.readList a n = m'.readList a n := by
  refine List.ext_getElem (by simp) fun k h1 h2 => ?_
  rw [Memory.getElem_readList, Memory.getElem_readList]
  simp at h1
  exact h _ (by omega) (by omega)

theorem Memory.readList_add (m : Memory) (a j n : Nat) :
    m.readList a (j + n) = m.readList a j ++ m.readList (a + j) n := by
  induction j generalizing a with
  | zero => simp [Memory.readList]
  | succ j ih =>
    rw [show j + 1 + n = j + n + 1 by omega]
    simp only [Memory.readList, ih, List.cons_append]
    rw [show a + 1 + j = a + (j + 1) by omega]

theorem Memory.readList_take (m : Memory) (a : Nat) {k n : Nat} (h : k ≤ n) : (m.readList a n).take k = m.readList a k := by
  obtain ⟨d, rfl⟩ := Nat.exists_eq_add_of_le h
  rw [Memory.readList_add, List.take_left' (by simp)]

/-- What was written is what is read back (20_memory.md R65). -/
@[simp] theorem Memory.readList_writeList (m : Memory) (a : Nat) (vs : List Byte) :
    (m.writeList a vs).readList a vs.length = vs := by
  refine List.ext_getElem (by simp) fun k h1 h2 => ?_
  rw [Memory.getElem_readList, Memory.read_writeList_inside _ _ _ _ h2]

end Sys2Proof.Machine
end

