-- ==== Sys2Proof/Laws/Ops.lean ====
section
/-! SUPPORT. What each shared operation can do, said once: the source read, `emit` of many bytes, and the command sequence. -/

namespace Sys2Proof.Machine

/-! ## Regions -/

theorem Region.has_iff (r : Region) (a : Nat) : r.has a = true ↔ r.base ≤ a ∧ a < r.base + r.n := by
  simp only [Region.has, Bool.and_eq_true, decide_eq_true_eq]

theorem Region.has_false_iff (r : Region) (a : Nat) : r.has a = false ↔ a < r.base ∨ r.base + r.n ≤ a := by
  rw [← Bool.not_eq_true, Region.has_iff]
  omega

theorem Region.meets_iff (r q : Region) :
    r.meets q = true ↔ 0 < r.n ∧ 0 < q.n ∧ r.base < q.base + q.n ∧ q.base < r.base + r.n := by
  simp only [Region.meets, Bool.and_eq_true, decide_eq_true_eq, and_assoc]

theorem rangeFails_iff (r : Ranges) :
    rangeFails r = true ↔ 4294967296 < r.src.base + r.src.n ∨ 4294967296 < r.dst.base + r.dst.n := by
  simp only [rangeFails, Bool.or_eq_true, decide_eq_true_eq]
  rfl

/-! ## The source read -/

theorem readSource_backed {p : Platform} {m : Memory} {a n : Nat} (h : ∀ b, a ≤ b → b < a + n → p.admits b = true) :
    readSource p m a n = some (m.readList a n) := by
  induction n generalizing a with
  | zero => rfl
  | succ n ih =>
    simp only [readSource, h a (by omega) (by omega), if_true]
    rw [ih fun b h1 h2 => h b (by omega) (by omega)]
    rfl

/-- The source read gives the bytes of the range, all of them backed (40_dispatch.md R106). -/
theorem readSource_some {p : Platform} {m : Memory} {a n : Nat} {bs : List Byte} (h : readSource p m a n = some bs) :
    bs = m.readList a n ∧ ∀ b, a ≤ b → b < a + n → p.admits b = true := by
  induction n generalizing a bs with
  | zero =>
    simp only [readSource, Option.some.injEq] at h
    exact ⟨h.symm, fun b h1 h2 => absurd h2 (by omega)⟩
  | succ n ih =>
    simp only [readSource] at h
    split at h
    · next hp =>
      split at h
      · next bs' hbs =>
        obtain ⟨rfl, hb⟩ := ih hbs
        simp only [Option.some.injEq] at h
        refine ⟨h.symm, fun b h1 h2 => ?_⟩
        rcases Nat.eq_or_lt_of_le h1 with rfl | hlt
        · exact hp
        · exact hb b hlt (by omega)
      · exact absurd h (by simp)
    · exact absurd h (by simp)

/-- A source range with an unbacked byte is not read (20_memory.md R61). -/
theorem readSource_none {p : Platform} {m : Memory} {lo n : Nat}
    (h : ∃ a, lo ≤ a ∧ a < lo + n ∧ p.admits a = false) : readSource p m lo n = none := by
  cases hr : readSource p m lo n with
  | none => rfl
  | some bs =>
    obtain ⟨a, h1, h2, h3⟩ := h
    have := (readSource_some hr).2 a h1 h2
    simp [h3] at this

/-! ## The output primitive -/

@[simp] theorem emitAll_nil (p : Platform) (dst cap : Nat) (m : Memory) (k : Nat) :
    emitAll p dst cap m k [] = .done m k := rfl

/-- Everything one `emit` can do (40_dispatch.md R107). -/
theorem emit_cases (p : Platform) (dst cap : Nat) (m : Memory) (k : Nat) (v : Byte) :
    emit p dst cap m k v = .done (m.write (dst + k) v) (k + 1) ∨ emit p dst cap m k v = .overflow m k ∨
      emit p dst cap m k v = .stuck := by
  unfold emit
  split
  · exact .inr (.inl rfl)
  · split
    · exact .inl rfl
    · exact .inr (.inr rfl)

/-- Whether an emission gets stuck does not depend on memory (20_memory.md R61). -/
theorem emitAll_stuck {p : Platform} {dst cap : Nat} {m : Memory} (m' : Memory) {k : Nat} {vs : List Byte}
    (h : emitAll p dst cap m k vs = .stuck) : emitAll p dst cap m' k vs = .stuck := by
  induction vs generalizing m m' k with
  | nil => cases h
  | cons v vs ih =>
    simp only [emitAll, emit] at h ⊢
    by_cases h1 : cap ≤ k
    · rw [if_pos h1] at h; cases h
    · rw [if_neg h1] at h ⊢
      by_cases h2 : p.admits (dst + k) = true
      · rw [if_pos h2] at h ⊢; exact ih _ h
      · rw [if_neg h2]

theorem emitAll_append (p : Platform) (dst cap : Nat) (m : Memory) (k : Nat) (xs ys : List Byte) :
    emitAll p dst cap m k (xs ++ ys) =
      (emitAll p dst cap m k xs).andThen fun m k => emitAll p dst cap m k ys := by
  induction xs generalizing m k with
  | nil => rfl
  | cons x xs ih =>
    simp only [List.cons_append, emitAll]
    cases emit p dst cap m k x with
    | done m' k' => exact ih m' k'
    | overflow m' k' => rfl
    | stuck => rfl

/-- Room and backing for every byte: all are written, in order (40_dispatch.md R107, 20_memory.md R64). -/
theorem emitAll_fits {p : Platform} {dst cap : Nat} {m : Memory} {k : Nat} {vs : List Byte} (hcap : k + vs.length ≤ cap)
    (hb : ∀ j, j < vs.length → p.admits (dst + k + j) = true) :
    emitAll p dst cap m k vs = .done (m.writeList (dst + k) vs) (k + vs.length) := by
  induction vs generalizing m k with
  | nil => rfl
  | cons v vs ih =>
    simp only [List.length_cons] at hcap hb
    have h0 : p.admits (dst + k) = true := hb 0 (by omega)
    simp only [emitAll, emit, show ¬ cap ≤ k by omega, h0, if_true, if_false]
    rw [ih (by omega) fun j hj => by
      have := hb (j + 1) (by omega)
      rwa [show dst + k + (j + 1) = dst + (k + 1) + j by omega] at this]
    simp only [Memory.writeList, List.length_cons]
    rw [show dst + (k + 1) = dst + k + 1 by omega, show k + 1 + vs.length = k + (vs.length + 1) by omega]

/-- More bytes than room: exactly the capacity is written, then DST_OVERFLOW (40_dispatch.md R107). -/
theorem emitAll_overflows {p : Platform} {dst cap : Nat} {m : Memory} {k : Nat} {vs : List Byte} (hk : k ≤ cap)
    (hcap : cap < k + vs.length) (hb : ∀ j, j < cap - k → p.admits (dst + k + j) = true) :
    emitAll p dst cap m k vs = .overflow (m.writeList (dst + k) (vs.take (cap - k))) cap := by
  induction vs generalizing m k with
  | nil => simp only [List.length_nil] at hcap; omega
  | cons v vs ih =>
    simp only [List.length_cons] at hcap
    by_cases hck : cap ≤ k
    · have : cap = k := by omega
      subst this
      simp [emitAll, emit]
    · have h0 : p.admits (dst + k) = true := hb 0 (by omega)
      simp only [emitAll, emit, hck, h0, if_true, if_false]
      rw [ih (by omega) (by omega) fun j hj => by
        have := hb (j + 1) (by omega)
        rwa [show dst + k + (j + 1) = dst + (k + 1) + j by omega] at this]
      rw [show cap - k = cap - (k + 1) + 1 by omega, List.take_succ_cons, Memory.writeList,
        show dst + (k + 1) = dst + k + 1 by omega]

/-- Everything an emission can do: it gets stuck, or it writes all the bytes, or it writes the capacity and overflows. -/
theorem emitAll_cases {p : Platform} {dst cap : Nat} {m : Memory} {k : Nat} {vs : List Byte} (hk : k ≤ cap) :
    emitAll p dst cap m k vs = .stuck ∨
      (k + vs.length ≤ cap ∧ (∀ j, j < vs.length → p.admits (dst + k + j) = true) ∧
        emitAll p dst cap m k vs = .done (m.writeList (dst + k) vs) (k + vs.length)) ∨
      (cap < k + vs.length ∧ (∀ j, j < cap - k → p.admits (dst + k + j) = true) ∧
        emitAll p dst cap m k vs = .overflow (m.writeList (dst + k) (vs.take (cap - k))) cap) := by
  induction vs generalizing m k with
  | nil => exact .inr (.inl ⟨by simpa using hk, by simp, rfl⟩)
  | cons v vs ih =>
    by_cases hck : cap ≤ k
    · exact .inr (.inr ⟨by simp only [List.length_cons]; omega, fun j hj => absurd hj (by omega),
        emitAll_overflows hk (by simp only [List.length_cons]; omega) fun j hj => absurd hj (by omega)⟩)
    · by_cases h0 : p.admits (dst + k) = true
      · have hstep : emitAll p dst cap m k (v :: vs) = emitAll p dst cap (m.write (dst + k) v) (k + 1) vs := by
          simp [emitAll, emit, hck, h0]
        have hall : ∀ n, (∀ j, j < n → p.admits (dst + (k + 1) + j) = true) →
            ∀ j, j < n + 1 → p.admits (dst + k + j) = true := by
          intro n hn j hj
          cases j with
          | zero => exact h0
          | succ j =>
            rw [show dst + k + (j + 1) = dst + (k + 1) + j by omega]
            exact hn j (by omega)
        rcases ih (m := m.write (dst + k) v) (k := k + 1) (by omega) with h | ⟨h1, h2, -⟩ | ⟨h1, h2, -⟩
        · exact .inl (hstep.trans h)
        · have hl : k + (v :: vs).length ≤ cap := by simp only [List.length_cons]; omega
          exact .inr (.inl ⟨hl, hall _ h2, emitAll_fits hl (hall _ h2)⟩)
        · have hl : cap < k + (v :: vs).length := by simp only [List.length_cons]; omega
          have hb : ∀ j, j < cap - k → p.admits (dst + k + j) = true := fun j hj => hall _ h2 j (by omega)
          exact .inr (.inr ⟨hl, hb, emitAll_overflows hk hl hb⟩)
      · left
        simp [emitAll, emit, hck, h0]

/-! ## The command sequence -/

theorem rangesPass_iff (r : Ranges) : RangesPass r ↔ rangeFails r = false ∧ overlapFails r = false := by
  simp only [RangesPass, rangeFails, overlapFails, Region.meets, Bool.or_eq_false_iff, decide_eq_false_iff_not]
  constructor
  · rintro ⟨h1, h2, h3⟩
    refine ⟨⟨by omega, by omega⟩, ?_⟩
    by_contra hc
    simp only [Bool.not_eq_false, Bool.and_eq_true, decide_eq_true_eq] at hc
    exact h3 ⟨hc.1.1.1, hc.1.1.2, hc.1.2, hc.2⟩
  · rintro ⟨⟨h1, h2⟩, h3⟩
    refine ⟨by omega, by omega, fun ⟨a, b, c, d⟩ => ?_⟩
    simp [a, b, c, d] at h3

/-- The output of a command with function effect `e`: what fits of `e.full` (40_dispatch.md R107). -/
def outputOf (r : Ranges) (e : Effect) : List Byte := e.full.take r.dst.n

/-- Where a command with function effect `e` and the checks passed ends (40_dispatch.md R107, R108). -/
def endState (r : Ranges) (e : Effect) (s : State) : State :=
  complete (if r.dst.n < e.full.length then .dstOverflow else e.code) (outputOf r e).length
    (if r.dst.n < e.full.length then false else e.trunc) e.result e.sample
    { s with mem := s.mem.writeList r.dst.base (outputOf r e) }

/-- The end of a command whose whole output fits. -/
theorem endState_fits {r : Ranges} {e : Effect} {s : State} (h : e.full.length ≤ r.dst.n) :
    endState r e s = complete e.code e.full.length e.trunc e.result e.sample
      { s with mem := s.mem.writeList r.dst.base e.full } := by
  simp only [endState, outputOf, show ¬ r.dst.n < e.full.length by omega, if_false, List.take_of_length_le h]

/-- The end of a command with more output than capacity (40_dispatch.md R107). -/
theorem endState_overflows {r : Ranges} {e : Effect} {s : State} (h : r.dst.n < e.full.length) :
    endState r e s = complete .dstOverflow r.dst.n false e.result e.sample
      { s with mem := s.mem.writeList r.dst.base (e.full.take r.dst.n) } := by
  simp only [endState, outputOf, h, if_true, List.length_take, Nat.min_eq_left (Nat.le_of_lt h)]

/-- The end of a command that writes nothing. -/
theorem endState_nil {r : Ranges} {e : Effect} {s : State} (h : e.full = []) :
    endState r e s = complete e.code 0 e.trunc e.result e.sample s := by
  simp [endState, outputOf, h]

theorem finish_emitAll {p : Platform} {r : Ranges} {e : Effect} {s : State}
    (hb : ∀ a, r.dst.base ≤ a → a < r.dst.base + (outputOf r e).length → p.admits a = true) :
    finish e (emitAll p r.dst.base r.dst.n s.mem 0 e.full) s = .next (endState r e s) := by
  by_cases h : r.dst.n < e.full.length
  · have hlen : (outputOf r e).length = r.dst.n := by simp [outputOf]; omega
    have ho := emitAll_overflows (p := p) (dst := r.dst.base) (m := s.mem) (vs := e.full) (Nat.zero_le r.dst.n)
      (by omega) (fun j hj => hb _ (by omega) (by omega))
    rw [ho]
    simp only [outputOf] at hlen
    simp only [finish, endState, h, if_true, raiseError, Nat.add_zero, Nat.sub_zero, outputOf, hlen]
  · have hlen : outputOf r e = e.full := by simp only [outputOf]; exact List.take_of_length_le (by omega)
    have ho := emitAll_fits (p := p) (dst := r.dst.base) (cap := r.dst.n) (m := s.mem) (k := 0) (vs := e.full)
      (by omega) (fun j hj => hb _ (by omega) (by rw [hlen]; omega))
    rw [ho]
    simp only [finish, endState, h, if_false, hlen, Nat.add_zero, Nat.zero_add]

/-- A command whose checks pass and whose source and output are backed completes (40_dispatch.md R109). -/
theorem runCommand_completes {r : Ranges} {f : List Byte → Effect} {s : State} (hr : RangesPass r)
    (hs : Backed s.platform r.src)
    (hd : ∀ a, r.dst.base ≤ a → a < r.dst.base + (outputOf r (f (bytesAt s r.src))).length → s.platform.admits a = true) :
    runCommand r f s = .next (endState r (f (bytesAt s r.src)) s) := by
  obtain ⟨h1, h2⟩ := (rangesPass_iff r).mp hr
  simp only [runCommand, h1, h2, readSource_backed hs, if_false, Bool.false_eq_true]
  exact finish_emitAll hd

/-- Everything `runCommand` can do: RANGE, OVERLAP, the stuck engine, or the end of the command. -/
theorem runCommand_cases (r : Ranges) (f : List Byte → Effect) (s : State) :
    (rangeFails r = true ∧ runCommand r f s = .next (raiseEarly .range s)) ∨
      (rangeFails r = false ∧ overlapFails r = true ∧ runCommand r f s = .next (raiseEarly .overlap s)) ∨
      (RangesPass r ∧ runCommand r f s = .fault .engineStuck) ∨
      (RangesPass r ∧ runCommand r f s = .next (endState r (f (bytesAt s r.src)) s)) := by
  by_cases h1 : rangeFails r = true
  · exact .inl ⟨h1, by simp [runCommand, h1]⟩
  · rw [Bool.not_eq_true] at h1
    by_cases h2 : overlapFails r = true
    · exact .inr (.inl ⟨h1, h2, by simp [runCommand, h1, h2]⟩)
    · rw [Bool.not_eq_true] at h2
      have hr := (rangesPass_iff r).mpr ⟨h1, h2⟩
      right; right
      cases hs : readSource s.platform s.mem r.src.base r.src.n with
      | none => exact .inl ⟨hr, by simp [runCommand, h1, h2, hs]⟩
      | some inp =>
        obtain ⟨rfl, hb⟩ := readSource_some hs
        have hrun : runCommand r f s = finish (f (bytesAt s r.src))
            (emitAll s.platform r.dst.base r.dst.n s.mem 0 (f (bytesAt s r.src)).full) s := by
          simp [runCommand, h1, h2, hs, bytesAt]
        rcases emitAll_cases (p := s.platform) (dst := r.dst.base) (m := s.mem) (vs := (f (bytesAt s r.src)).full)
          (Nat.zero_le r.dst.n) with h | ⟨hl, ha, -⟩ | ⟨hl, ha, -⟩
        · exact .inl ⟨hr, by rw [hrun, h]; rfl⟩
        · refine .inr ⟨hr, hrun.trans (finish_emitAll fun a h3 h4 => ?_)⟩
          have := ha (a - r.dst.base) (by simp [outputOf] at h4; omega)
          rwa [show r.dst.base + 0 + (a - r.dst.base) = a by omega] at this
        · refine .inr ⟨hr, hrun.trans (finish_emitAll fun a h3 h4 => ?_)⟩
          have := ha (a - r.dst.base) (by simp [outputOf] at h4; omega)
          rwa [show r.dst.base + 0 + (a - r.dst.base) = a by omega] at this

/-- What a command that answers a next state leaves unchanged, and where it may write (60_exceptions.md R201, 20_memory.md R64). -/
theorem runCommand_frame {r : Ranges} {f : List Byte → Effect} {s t : State} (h : runCommand r f s = .next t) :
    ∃ out : List Byte, out.length ≤ r.dst.n ∧ t.outLen = BitVec.ofNat 32 out.length ∧
      (out = [] ∨ RangesPass r) ∧ t.mem = s.mem.writeList r.dst.base out ∧
      t = { s with outLen := t.outLen, result := t.result, sample := t.sample, status := t.status, mem := t.mem } := by
  rcases runCommand_cases r f s with ⟨-, h1⟩ | ⟨-, -, h1⟩ | ⟨-, h1⟩ | ⟨hr, h1⟩ <;> rw [h1] at h
  · cases h; exact ⟨[], by simp, rfl, .inl rfl, rfl, rfl⟩
  · cases h; exact ⟨[], by simp, rfl, .inl rfl, rfl, rfl⟩
  · cases h
  · cases h
    exact ⟨outputOf r (f (bytesAt s r.src)), by simp [outputOf], rfl, .inr hr, rfl, rfl⟩

end Sys2Proof.Machine
end

