-- ==== Sys2Proof/Laws/Exec.lean ====
section
/-! SUPPORT. The meanings and the step, said once: every command is the common sequence on its own ranges and function, and
every step is one of a few kinds. -/

namespace Sys2Proof.Machine

/-! ## The commands -/

/-- The function of each command (40_dispatch.md R109). -/
def effectOf (clsPresent : Bool) : Instr → List Byte → Effect
  | .rleEnc => rleEncEffect
  | .lzEnc => lzEncEffect
  | .autoEnc => autoEffect clsPresent
  | .rleDec => rleDecEffect
  | .lzDec => lzDecEffect
  | .classify => classifyEffect
  | .suggestText => fun _ => suggestEffect .text
  | .suggestBinary => fun _ => suggestEffect .binary
  | .suggestMixed => fun _ => suggestEffect .mixed

/-- A command the build has runs the common sequence (40_dispatch.md R109). -/
theorem exec_legal {i : Instr} {s : State} (h : i.wellFormed s.clsPresent = true) :
    exec i s = runCommand (commandRanges s i) (effectOf s.clsPresent i) s := by
  cases i <;> simp_all [exec, Instr.wellFormed, Instr.needsSelector, effectOf, withSelector, execRleEnc, execRleDec,
    execLzEnc, execLzDec, execAutoEnc, execClassify, execSuggestText, execSuggestBinary, execSuggestMixed]

/-- A command the build lacks completes with ILLEGAL_CMD (43_selector.md R180). -/
theorem exec_illegal {i : Instr} {s : State} (h : i.wellFormed s.clsPresent = false) :
    exec i s = .next (illegalCommand s) := by
  cases i <;> simp_all [exec, Instr.wellFormed, Instr.needsSelector, withSelector, illegalCommand, execClassify,
    execSuggestText, execSuggestBinary, execSuggestMixed]

/-- Everything a command can do: ILLEGAL_CMD, RANGE, OVERLAP, the stuck engine, or its end. -/
theorem exec_cases (i : Instr) (s : State) :
    (i.wellFormed s.clsPresent = false ∧ exec i s = .next (raiseEarly .illegalCmd s)) ∨
      (i.wellFormed s.clsPresent = true ∧
        ((rangeFails (commandRanges s i) = true ∧ exec i s = .next (raiseEarly .range s)) ∨
          (rangeFails (commandRanges s i) = false ∧ overlapFails (commandRanges s i) = true ∧
            exec i s = .next (raiseEarly .overlap s)) ∨
          (RangesPass (commandRanges s i) ∧ exec i s = .fault .engineStuck) ∨
          (RangesPass (commandRanges s i) ∧ exec i s = .next (endState (commandRanges s i)
            (effectOf s.clsPresent i (bytesAt s (commandRanges s i).src)) s)))) := by
  cases h : i.wellFormed s.clsPresent with
  | false => exact .inl ⟨rfl, exec_illegal h⟩
  | true =>
    rw [exec_legal h]
    exact .inr ⟨rfl, runCommand_cases _ _ _⟩

/-- A command writes only the result registers, STATUS and its output (60_exceptions.md R201, 20_memory.md R64). -/
theorem exec_frame {i : Instr} {s t : State} (h : exec i s = .next t) :
    ∃ out : List Byte, out.length ≤ (commandRanges s i).dst.n ∧ t.outLen = BitVec.ofNat 32 out.length ∧
      (out = [] ∨ RangesPass (commandRanges s i)) ∧ t.mem = s.mem.writeList (commandRanges s i).dst.base out ∧
      t = { s with outLen := t.outLen, result := t.result, sample := t.sample, status := t.status, mem := t.mem } := by
  cases hw : i.wellFormed s.clsPresent with
  | true => exact runCommand_frame ((exec_legal hw).symm.trans h)
  | false =>
    rw [exec_illegal hw] at h
    cases h
    exact ⟨[], by simp, rfl, .inl rfl, rfl, rfl⟩

/-- A command answers a next state or leaves the engine stuck, and never anything else (40_dispatch.md R112). -/
theorem exec_total (i : Instr) (s : State) : (∃ t, exec i s = .next t) ∨ exec i s = .fault .engineStuck := by
  rcases exec_cases i s with ⟨-, h⟩ | ⟨-, ⟨-, h⟩ | ⟨-, -, h⟩ | ⟨-, h⟩ | ⟨-, h⟩⟩
  · exact .inl ⟨_, h⟩
  · exact .inl ⟨_, h⟩
  · exact .inl ⟨_, h⟩
  · exact .inr h
  · exact .inl ⟨_, h⟩

/-- A command that answers a next state leaves a completion in STATUS (40_dispatch.md R108). -/
theorem exec_status {i : Instr} {s t : State} (h : exec i s = .next t) :
    ∃ code trunc, t.status = completionStatus code trunc := by
  rcases exec_cases i s with ⟨-, e⟩ | ⟨-, ⟨-, e⟩ | ⟨-, -, e⟩ | ⟨-, e⟩ | ⟨-, e⟩⟩ <;> rw [e] at h <;> cases h <;>
    exact ⟨_, _, rfl⟩

/-! ## The commands with a source and a destination buffer -/

theorem buffer_wellFormed {i : Instr} (h : IsBufferCommand i) (clsPresent : Bool) : i.wellFormed clsPresent = true := by
  rcases h with rfl | rfl | rfl | rfl | rfl <;> cases clsPresent <;> rfl

theorem buffer_ranges {i : Instr} (h : IsBufferCommand i) (s : State) : commandRanges s i = bufferRanges s := by
  rcases h with rfl | rfl | rfl | rfl | rfl <;> rfl

theorem effectOf_full (clsPresent : Bool) (i : Instr) (inp : List Byte) :
    (effectOf clsPresent i inp).full = outputStream clsPresent i inp := by
  cases i <;> cases clsPresent <;> rfl

@[simp] theorem sourceBytes_length (s : State) : (sourceBytes s).length = s.srcLen.toNat := by
  simp [sourceBytes, bytesAt, sourceRegion]

/-- An unobstructed command reaches its end (40_dispatch.md R109). -/
theorem buffer_completes {i : Instr} {s : State} (hi : IsBufferCommand i)
    (h : Unobstructed s (outputStream s.clsPresent i (sourceBytes s))) :
    exec i s = .next (endState (bufferRanges s) (effectOf s.clsPresent i (sourceBytes s)) s) := by
  rw [exec_legal (buffer_wellFormed hi _), buffer_ranges hi]
  refine runCommand_completes h.1 h.2.1 fun a h1 h2 => h.2.2 a h1 ?_
  simp only [outputOf, bufferRanges, destinationRegion, effectOf_full, List.length_take] at h2 ⊢
  simp only [sourceBytes] at h2 ⊢
  omega

/-! ## The step -/

theorem step_idle {s : State} (hi : s.inputs = []) (hb : s.busy = false) : step s = .next s := by
  simp [step, hi, engineTurn, hb]

theorem step_busy {s : State} (hi : s.inputs = []) (hb : s.busy = true) : step s = engineStep s := by
  simp [step, hi, engineTurn, hb]

theorem engineStep_ok {s : State} {i : Instr} (h : decode s.cmdLatch = .ok i) : engineStep s = exec i s := by
  simp [engineStep, fetchCommand, h]

theorem engineStep_error {s : State} {r : Reject} (h : decode s.cmdLatch = .error r) :
    engineStep s = .next (raiseEarly .illegalCmd s) := by
  simp [engineStep, fetchCommand, h, illegalCommand]

/-- Everything a step that answers a next state can be, from `u`, the state less the move taken off the list. -/
theorem step_cases {s t : State} (h : step s = .next t) :
    ∃ u rest, u = { s with inputs := rest } ∧
      (t = u ∨ (s.busy = true ∧ engineStep u = .next t) ∨ (∃ r v, t = writeMove r v u) ∨ (∃ r, t = readMove r u) ∨
        (∃ a v, t = storeMove a v u) ∨ (∃ a, t = loadMove a u) ∨ t = resetMove u) := by
  unfold step at h
  split at h
  · next hi =>
    refine ⟨s, s.inputs, rfl, ?_⟩
    unfold engineTurn at h
    split at h
    · next hb => exact .inr (.inl ⟨hb, h⟩)
    · cases h; exact .inl rfl
  · next rest hi =>
    refine ⟨{ s with inputs := rest }, rest, rfl, ?_⟩
    unfold engineTurn at h
    split at h
    · next hb => exact .inr (.inl ⟨hb, h⟩)
    · cases h; exact .inl rfl
  · next rest hi =>
    split at h
    · next hb => exact ⟨s, s.inputs, rfl, .inr (.inl ⟨hb, h⟩)⟩
    · cases h
      exact ⟨_, rest, rfl, .inr (.inr (.inr (.inl ⟨_, rfl⟩)))⟩
  · next a v rest hi =>
    refine ⟨_, rest, rfl, .inr (.inr (.inl ?_))⟩
    unfold registerMove at h
    split at h
    · split at h
      · cases h; exact ⟨_, _, rfl⟩
      · cases h
    · cases h
  · next a rest hi =>
    refine ⟨_, rest, rfl, .inr (.inr (.inr (.inl ?_)))⟩
    unfold registerMove at h
    split at h
    · split at h
      · cases h; exact ⟨_, rfl⟩
      · cases h
    · cases h
  · next a v rest hi =>
    refine ⟨_, rest, rfl, .inr (.inr (.inr (.inr (.inl ?_))))⟩
    unfold memoryMove at h
    split at h
    · cases h
    · split at h
      · cases h; exact ⟨_, _, rfl⟩
      · cases h
  · next a rest hi =>
    refine ⟨_, rest, rfl, .inr (.inr (.inr (.inr (.inr (.inl ?_)))))⟩
    unfold memoryMove at h
    split at h
    · cases h
    · split at h
      · cases h; exact ⟨_, rfl⟩
      · cases h
  · next rest hi =>
    cases h
    exact ⟨_, rest, rfl, .inr (.inr (.inr (.inr (.inr (.inr rfl)))))⟩

/-! ## Reset -/

theorem drawBytes_outside (d : Nat) {a b n : Nat} (m : Memory) (h : b < a ∨ a + n ≤ b) :
    (drawBytes d a n m).read b = m.read b := by
  induction n generalizing a m with
  | zero => rfl
  | succ n ih =>
    simp only [drawBytes]
    rw [ih _ (by omega)]
    split
    · exact Memory.read_write_other _ _ (by omega)
    · rfl

theorem wf_drawBytes (d a n : Nat) {m : Memory} (h : m.wf = true) : (drawBytes d a n m).wf = true := by
  induction n generalizing a m with
  | zero => exact h
  | succ n ih =>
    simp only [drawBytes]
    refine ih (a + 1) ?_
    split
    · next ha => exact Memory.wf_write _ h ha
    · exact h

/-- The memory after a reset is in canonical form (70_reset_and_hazards.md R231, R233). -/
theorem wf_memoryAfterReset {s : State} (h : s.mem.wf = true) : (memoryAfterReset s).wf = true := by
  unfold memoryAfterReset
  split
  · exact wf_drawBytes _ _ _ h
  · exact h

/-- A command keeps the memory's canonical form. -/
theorem exec_keeps_memory_wf {i : Instr} {s t : State} (h : exec i s = .next t) (hm : s.mem.wf = true) :
    t.mem.wf = true := by
  obtain ⟨out, hlen, -, hr, hmem, -⟩ := exec_frame h
  rw [hmem]
  rcases hr with rfl | hr
  · exact hm
  · exact Memory.wf_writeList out hm (by have := hr.2.1; omega)

/-- A host store keeps the memory's canonical form. -/
theorem storeMove_keeps_memory_wf {a : Word} {v : Byte} {s : State} (hm : s.mem.wf = true) :
    (storeMove a v s).mem.wf = true :=
  Memory.wf_write v hm a.isLt

end Sys2Proof.Machine
end

