-- ==== Sys2Proof/Laws/Codecs.lean ====
section
/-! SUPPORT. The laws of the codec and selector functions. -/

namespace Sys2Proof.Machine

/-! ## RLE -/

@[simp] theorem rleDecode_nil : rleDecode [] = [] := rfl

@[simp] theorem rleDecode_token (c v : Byte) (rest : List Byte) :
    rleDecode (c :: v :: rest) = List.replicate c.toNat v ++ rleDecode rest := rfl

/-- Whole tokens decode first, then the rest (41_rle.md R124). -/
theorem rleDecode_append {n : Nat} {pre : List Byte} (rest : List Byte) (h : pre.length = 2 * n) :
    rleDecode (pre ++ rest) = rleDecode pre ++ rleDecode rest := by
  induction n generalizing pre with
  | zero =>
    obtain rfl := List.length_eq_zero_iff.mp (by omega : pre.length = 0)
    rfl
  | succ n ih =>
    match pre, h with
    | c :: v :: pre, h =>
      simp only [List.length_cons] at h
      simp [ih (pre := pre) (by omega)]

@[simp] theorem rleEncode_nil : rleEncode [] = [] := rfl

theorem toNat_count {run : Nat} (h : run ≤ rleMaxRun) : (BitVec.ofNat 8 run : Byte).toNat = run := by
  rw [BitVec.toNat_ofNat]
  exact Nat.mod_eq_of_lt (by simp only [rleMaxRun] at h; omega)

/-- Decoding what a run encodes to gives the run back, then the rest (41_rle.md R128). -/
theorem rleDecode_rleEncodeRun (v : Byte) (run : Nat) (rest : List Byte) (h : run ≤ rleMaxRun) :
    rleDecode (rleEncodeRun v run rest) = List.replicate run v ++ rest := by
  induction rest generalizing v run with
  | nil => simp [rleEncodeRun, rleToken, toNat_count h]
  | cons x rest ih =>
    simp only [rleEncodeRun]
    split
    · next hx =>
      rw [ih v (run + 1) (by omega), hx.1, List.replicate_succ', List.append_assoc]
      rfl
    · simp only [rleToken, List.cons_append, List.nil_append, rleDecode_token, toNat_count h]
      rw [ih x 1 (by simp [rleMaxRun])]
      rfl

/-- The RLE round trip on byte sequences (41_rle.md R128). -/
theorem rleDecode_rleEncode (b : List Byte) : rleDecode (rleEncode b) = b := by
  cases b with
  | nil => rfl
  | cons v rest => exact rleDecode_rleEncodeRun v 1 rest (by simp [rleMaxRun])

theorem length_rleEncodeRun (v : Byte) (run : Nat) (rest : List Byte) :
    (rleEncodeRun v run rest).length % 2 = 0 ∧ (rleEncodeRun v run rest).length ≤ 2 + 2 * rest.length := by
  induction rest generalizing v run with
  | nil => simp [rleEncodeRun, rleToken]
  | cons x rest ih =>
    simp only [rleEncodeRun]
    split
    · have := ih v (run + 1)
      simp only [List.length_cons]; omega
    · have := ih x 1
      simp only [List.length_append, rleToken, List.length_cons, List.length_nil]; omega

/-- The encoder's output is even and at most twice the input (41_rle.md R123). -/
theorem length_rleEncode (b : List Byte) : (rleEncode b).length % 2 = 0 ∧ (rleEncode b).length ≤ 2 * b.length := by
  cases b with
  | nil => simp
  | cons v rest =>
    have := length_rleEncodeRun v 1 rest
    simp only [rleEncode, List.length_cons]; omega

/-! ## The LZ77 copy -/

theorem copyBytes_succ {start left j : Nat} {out : List Byte} (h : start + j < out.length) :
    copyBytes start (left + 1) j out = copyBytes start left (j + 1) (out ++ [out[start + j]]) := by
  simp [copyBytes, List.getElem?_eq_getElem h]

theorem copyBytes_skips (start left j : Nat) (out : List Byte) (h : out.length ≤ start + j) :
    copyBytes start left j out = out := by
  induction left generalizing j with
  | zero => rfl
  | succ left ih =>
    simp only [copyBytes, List.getElem?_eq_none h]
    exact ih (j + 1) (by omega)

/-- A copy from inside the output appends exactly `left` bytes, and each repeats the byte `offset` before it
(42_lz77.md R154, R155). -/
theorem copyBytes_spec {offset left j : Nat} {out : List Byte} {start : Nat} (hpos : 1 ≤ offset)
    (hstart : start + j + offset = out.length) :
    ∃ app : List Byte, copyBytes start left j out = out ++ app ∧ app.length = left ∧
      ∀ k, k < left → (out ++ app)[out.length + k]? = (out ++ app)[out.length + k - offset]? := by
  induction left generalizing j out with
  | zero => exact ⟨[], by simp [copyBytes], rfl, by simp⟩
  | succ left ih =>
    have hlt : start + j < out.length := by omega
    rw [copyBytes_succ hlt]
    obtain ⟨app, h1, h2, h3⟩ := ih (j := j + 1) (out := out ++ [out[start + j]])
      (by simp only [List.length_append, List.length_cons, List.length_nil]; omega)
    refine ⟨out[start + j] :: app, by simpa using h1, by simp [h2], fun k hk => ?_⟩
    cases k with
    | zero =>
      rw [Nat.add_zero, List.getElem?_append_right (Nat.le_refl _), List.getElem?_append_left (by omega)]
      simp only [Nat.sub_self, List.getElem?_cons_zero]
      rw [show out.length - offset = start + j by omega, List.getElem?_eq_getElem hlt]
    | succ k =>
      have := h3 k (by omega)
      simp only [List.append_assoc, List.cons_append, List.nil_append, List.length_append, List.length_cons,
        List.length_nil] at this
      rw [show out.length + (k + 1) = out.length + (0 + 1) + k by omega]
      exact this

/-- A copy whose source lies inside the output appends that part of it (42_lz77.md R148). -/
theorem copyBytes_inside {start left : Nat} (out : List Byte) (h : start + left ≤ out.length) :
    copyBytes start left 0 out = out ++ (out.drop start).take left := by
  have key : ∀ n j (app : List Byte), j + n = left → app = (out.drop start).take j →
      copyBytes start n j (out ++ app) = out ++ (out.drop start).take left := by
    intro n
    induction n with
    | zero =>
      intro j app hj happ
      simp only [Nat.add_zero] at hj
      simp [copyBytes, happ, hj]
    | succ n ih =>
      intro j app hj happ
      have hlt : start + j < out.length := by omega
      rw [copyBytes_succ (by simp; omega), List.append_assoc]
      refine ih (j + 1) _ (by omega) ?_
      rw [List.getElem_append_left hlt, happ, List.take_add_one]
      congr 1
      rw [List.getElem?_drop, List.getElem?_eq_getElem hlt]
      rfl
  simpa using key left 0 [] (by omega) (by simp)

/-! ## The LZ77 match search -/

theorem extendMatch_spec (inp : List Byte) (pos i left m : Nat) (hpos : pos + m ≤ inp.length) (hi : i + m ≤ pos)
    (hm : ∀ k, k < m → inp[i + k]? = inp[pos + k]?) :
    m ≤ extendMatch inp pos i left m ∧ extendMatch inp pos i left m ≤ m + left ∧
      pos + extendMatch inp pos i left m ≤ inp.length ∧ i + extendMatch inp pos i left m ≤ pos ∧
      (∀ k, k < extendMatch inp pos i left m → inp[i + k]? = inp[pos + k]?) ∧
      (extendMatch inp pos i left m = m + left ∨ pos + extendMatch inp pos i left m = inp.length ∨
        i + extendMatch inp pos i left m = pos ∨
        inp[i + extendMatch inp pos i left m]? ≠ inp[pos + extendMatch inp pos i left m]?) := by
  induction left generalizing m with
  | zero => exact ⟨Nat.le_refl _, Nat.le_refl _, hpos, hi, hm, .inl rfl⟩
  | succ left ih =>
    simp only [extendMatch]
    split
    · next h =>
      obtain ⟨h1, h2, h3⟩ := h
      have := ih (m + 1) (by omega) (by omega) (fun k hk => by
        rcases Nat.lt_or_ge k m with h | h
        · exact hm k h
        · rw [show k = m by omega]; exact h3)
      refine ⟨by omega, by omega, this.2.2.1, this.2.2.2.1, this.2.2.2.2.1, ?_⟩
      rw [show m + (left + 1) = m + 1 + left by omega]
      exact this.2.2.2.2.2
    · next h =>
      refine ⟨Nat.le_refl _, by omega, hpos, hi, hm, ?_⟩
      by_cases h1 : pos + m < inp.length
      · by_cases h2 : i + m < pos
        · exact .inr (.inr (.inr fun h3 => h ⟨h1, h2, h3⟩))
        · exact .inr (.inr (.inl (by omega)))
      · exact .inr (.inl (by omega))

/-- The match length's bounds, the agreement it stands for, and why it stops (42_lz77.md R142). -/
theorem matchLen_spec (inp : List Byte) {pos i : Nat} (hpos : pos ≤ inp.length) (hi : i ≤ pos) :
    matchLen inp pos i ≤ lookahead ∧ pos + matchLen inp pos i ≤ inp.length ∧ i + matchLen inp pos i ≤ pos ∧
      (∀ k, k < matchLen inp pos i → inp[i + k]? = inp[pos + k]?) ∧
      (matchLen inp pos i = lookahead ∨ pos + matchLen inp pos i = inp.length ∨ i + matchLen inp pos i = pos ∨
        inp[i + matchLen inp pos i]? ≠ inp[pos + matchLen inp pos i]?) := by
  have h := extendMatch_spec inp pos i lookahead 0 (by omega) (by omega) (by simp)
  rw [Nat.zero_add] at h
  exact h.2

theorem mem_candidates {pos i : Nat} : i ∈ candidates pos ↔ pos - windowSize ≤ i ∧ i < pos := by
  simp only [candidates, List.mem_range'_1]
  omega

/-- What the best match over candidates `lo ..` says after the candidates below `hi` (42_lz77.md R143). -/
def BestUpTo (inp : List Byte) (pos lo hi : Nat) (b : Match) : Prop :=
  (b.len = 0 ∧ b.off = 0 ∧ ∀ i, lo ≤ i → i < hi → matchLen inp pos i = 0) ∨
    (0 < b.len ∧ lo ≤ pos - b.off ∧ pos - b.off < hi ∧ b.off ≤ pos ∧ matchLen inp pos (pos - b.off) = b.len ∧
      (∀ i, lo ≤ i → i < hi → matchLen inp pos i ≤ b.len) ∧
      ∀ i, lo ≤ i → i < pos - b.off → matchLen inp pos i < b.len)

theorem bestUpTo_step {inp : List Byte} {pos lo hi : Nat} {b : Match} (h : BestUpTo inp pos lo hi b) (hlo : lo ≤ hi)
    (hhi : hi < pos) : BestUpTo inp pos lo (hi + 1) (considerCandidate inp pos b hi) := by
  unfold considerCandidate
  split
  · next hlt =>
    right
    have hoff : pos - (pos - hi) = hi := by omega
    simp only [hoff]
    refine ⟨by omega, hlo, by omega, by omega, trivial, fun i h1 h2 => ?_, fun i h1 h2 => ?_⟩
    · rcases Nat.lt_or_ge i hi with h3 | h3
      · rcases h with ⟨-, -, h4⟩ | ⟨-, -, -, -, -, h4, -⟩
        · have := h4 i h1 h3; omega
        · have := h4 i h1 h3; omega
      · rw [show i = hi by omega]
    · rcases h with ⟨-, -, h4⟩ | ⟨-, -, -, -, -, h4, -⟩
      · have := h4 i h1 h2; omega
      · have := h4 i h1 h2; omega
  · next hge =>
    rcases h with ⟨h1, h2, h3⟩ | ⟨h1, h2, h3, h4, h5, h6, h7⟩
    · refine .inl ⟨h1, h2, fun i h4 h5 => ?_⟩
      rcases Nat.lt_or_ge i hi with h6 | h6
      · exact h3 i h4 h6
      · rw [show i = hi by omega]; omega
    · refine .inr ⟨h1, h2, by omega, h4, h5, fun i h8 h9 => ?_, h7⟩
      rcases Nat.lt_or_ge i hi with h10 | h10
      · exact h6 i h8 h10
      · rw [show i = hi by omega]; omega

theorem bestUpTo_foldl {inp : List Byte} {pos lo hi n : Nat} {b : Match} (h : BestUpTo inp pos lo hi b) (hlo : lo ≤ hi)
    (hn : hi + n ≤ pos) : BestUpTo inp pos lo (hi + n) ((List.range' hi n).foldl (considerCandidate inp pos) b) := by
  induction n generalizing hi b with
  | zero => exact h
  | succ n ih =>
    simp only [List.range'_succ, List.foldl_cons]
    rw [show hi + (n + 1) = hi + 1 + n by omega]
    exact ih (bestUpTo_step h hlo (by omega)) (by omega) (by omega)

/-- The best match: the greatest length over the candidates, at the lowest of them that reaches it (42_lz77.md R143). -/
theorem bestMatch_spec (inp : List Byte) (pos : Nat) : BestUpTo inp pos (pos - windowSize) pos (bestMatch inp pos) := by
  have h := bestUpTo_foldl (inp := inp) (pos := pos) (lo := pos - windowSize) (hi := pos - windowSize)
    (n := pos - (pos - windowSize)) (b := { len := 0, off := 0 }) (.inl ⟨rfl, rfl, fun i h1 h2 => by omega⟩)
    (Nat.le_refl _) (by omega)
  rwa [show pos - windowSize + (pos - (pos - windowSize)) = pos by omega] at h

/-- The bounds of an accepted match, and the bytes it stands for (42_lz77.md R148). -/
theorem bestMatch_accepted {inp : List Byte} {pos : Nat} (hpos : pos ≤ inp.length) (h : 0 < (bestMatch inp pos).len) :
    1 ≤ (bestMatch inp pos).off ∧ (bestMatch inp pos).off ≤ windowSize ∧ (bestMatch inp pos).off ≤ pos ∧
      (bestMatch inp pos).len ≤ lookahead ∧ (bestMatch inp pos).len ≤ (bestMatch inp pos).off ∧
      pos + (bestMatch inp pos).len ≤ inp.length ∧
      ∀ k, k < (bestMatch inp pos).len → inp[pos - (bestMatch inp pos).off + k]? = inp[pos + k]? := by
  rcases bestMatch_spec inp pos with ⟨h1, -⟩ | ⟨-, h2, h3, h4, h5, -⟩
  · omega
  · have hm := matchLen_spec inp (i := pos - (bestMatch inp pos).off) hpos (by omega)
    rw [h5] at hm
    exact ⟨by omega, by omega, h4, hm.1, by omega, hm.2.1, hm.2.2.2.1⟩

/-! ## The LZ77 decoder on tokens -/

theorem lzDecodeFrom_literal (out rest : List Byte) (v : Byte) :
    lzDecodeFrom out (literalToken v ++ rest) = lzDecodeFrom (out ++ [v]) rest := by
  simp [literalToken, lzDecodeFrom, tokenOffset]

theorem tokenOffset_backref {off : Nat} (h : off < 65536) :
    tokenOffset (BitVec.ofNat 8 (off / 256)) (BitVec.ofNat 8 off) = off := by
  simp only [tokenOffset, BitVec.toNat_ofNat]
  omega

theorem lzDecodeFrom_backref (out rest : List Byte) {off len : Nat} (h1 : 1 ≤ off) (h2 : off < 65536) (h3 : len < 256)
    (h4 : off ≤ out.length) :
    lzDecodeFrom out (backrefToken off len ++ rest) = lzDecodeFrom (copyBytes (out.length - off) len 0 out) rest := by
  have hlen : (BitVec.ofNat 8 len : Byte).toNat = len := by rw [BitVec.toNat_ofNat]; omega
  simp only [backrefToken, List.cons_append, List.nil_append, lzDecodeFrom, tokenOffset_backref h2, hlen]
  rw [if_neg (by omega), if_neg (by omega)]

/-- A copy only appends (42_lz77.md R154). -/
theorem copyBytes_extends (start left j : Nat) (out : List Byte) : ∃ app, copyBytes start left j out = out ++ app := by
  induction left generalizing j out with
  | zero => exact ⟨[], by simp [copyBytes]⟩
  | succ left ih =>
    simp only [copyBytes]
    split
    · next b _ =>
      obtain ⟨app, h⟩ := ih (j + 1) (out ++ [b])
      exact ⟨b :: app, by rw [h]; simp⟩
    · exact ih _ _

/-- Decoding only appends to the output so far (42_lz77.md R150). -/
theorem lzDecodeFrom_extends (out inp : List Byte) : ∃ app, (lzDecodeFrom out inp).out = out ++ app := by
  suffices h : ∀ n (inp out : List Byte), inp.length ≤ n → ∃ app, (lzDecodeFrom out inp).out = out ++ app from
    h inp.length inp out (Nat.le_refl _)
  intro n
  induction n with
  | zero =>
    intro inp out h
    obtain rfl := List.length_eq_zero_iff.mp (Nat.le_zero.mp h)
    exact ⟨[], by simp [lzDecodeFrom]⟩
  | succ n ih =>
    intro inp out h
    match inp, h with
    | [], _ => exact ⟨[], by simp [lzDecodeFrom]⟩
    | [_], _ => exact ⟨[], by simp [lzDecodeFrom]⟩
    | [_, _], _ => exact ⟨[], by simp [lzDecodeFrom]⟩
    | [_, _, _], _ => exact ⟨[], by simp [lzDecodeFrom]⟩
    | hi :: lo :: len :: lit :: rest, h =>
      simp only [List.length_cons] at h
      simp only [lzDecodeFrom]
      split
      · obtain ⟨app, h⟩ := ih rest (out ++ [lit]) (by omega)
        exact ⟨lit :: app, by rw [h]; simp⟩
      · split
        · exact ⟨[], by simp⟩
        · obtain ⟨a, ha⟩ := copyBytes_extends (out.length - tokenOffset hi lo) len.toNat 0 out
          rw [ha]
          obtain ⟨app, h⟩ := ih rest (out ++ a) (by omega)
          exact ⟨a ++ app, by rw [h]; simp⟩

/-- Whole tokens with no corrupt one decode first, then the rest (42_lz77.md R150). -/
theorem lzDecodeFrom_append {n : Nat} {out o pre rest : List Byte} (hl : pre.length = 4 * n)
    (h : lzDecodeFrom out pre = { out := o, corrupt := false }) :
    lzDecodeFrom out (pre ++ rest) = lzDecodeFrom o rest := by
  induction n generalizing out pre with
  | zero =>
    obtain rfl : pre = [] := List.length_eq_zero_iff.mp (by omega)
    simp only [lzDecodeFrom, Decoded.mk.injEq, and_true] at h
    rw [h, List.nil_append]
  | succ n ih =>
    match pre, hl with
    | a :: b :: c :: d :: pre, hl =>
      simp only [List.cons_append, lzDecodeFrom] at h ⊢
      simp only [List.length_cons] at hl
      split at h
      · next h1 => rw [if_pos h1]; exact ih (by omega) h
      · next h1 =>
        rw [if_neg h1]
        split at h
        · simp at h
        · next h2 => rw [if_neg h2]; exact ih (by omega) h

theorem lzDecode_append {pre rest o : List Byte} (h4 : pre.length % 4 = 0)
    (h : lzDecode pre = { out := o, corrupt := false }) : lzDecode (pre ++ rest) = lzDecodeFrom o rest :=
  lzDecodeFrom_append (n := pre.length / 4) (by omega) h

/-- Decoding the encoder's tokens from `pos` on gives the rest of the input back (42_lz77.md R158). -/
theorem lzDecodeFrom_lzEncodeFrom (inp : List Byte) (fuel pos : Nat) (hpos : pos ≤ inp.length)
    (hfuel : inp.length ≤ pos + fuel) :
    lzDecodeFrom (inp.take pos) (lzEncodeFrom inp fuel pos) = { out := inp, corrupt := false } := by
  induction fuel generalizing pos with
  | zero => rw [List.take_of_length_le (by omega)]; rfl
  | succ fuel ih =>
    simp only [lzEncodeFrom]
    split
    · next hnone =>
      rw [List.take_of_length_le (List.getElem?_eq_none_iff.mp hnone)]; rfl
    · next v hv =>
      have hlt : pos < inp.length := (List.getElem?_eq_some_iff.mp hv).1
      split
      · next hlen =>
        simp only [minMatch] at hlen
        obtain ⟨a1, a2, a3, a4, a5, a6, a7⟩ := bestMatch_accepted hpos (by omega : 0 < (bestMatch inp pos).len)
        simp only [windowSize] at a2
        simp only [lookahead] at a4
        rw [lzDecodeFrom_backref _ _ a1 (by omega) (by omega) (by simp; omega), copyBytes_inside _ (by simp; omega)]
        have hcopy : inp.take pos ++ ((inp.take pos).drop ((inp.take pos).length - (bestMatch inp pos).off)).take
            (bestMatch inp pos).len = inp.take (pos + (bestMatch inp pos).len) := by
          rw [List.take_add]
          refine congrArg (inp.take pos ++ ·) (List.ext_getElem? fun k => ?_)
          simp only [List.getElem?_take, List.getElem?_drop, List.length_take, Nat.min_eq_left hpos]
          split
          · next hk =>
            rw [if_pos (by omega)]
            exact a7 k hk
          · rfl
        rw [hcopy]
        exact ih _ (by omega) (by omega)
      · rw [lzDecodeFrom_literal]
        have : inp.take pos ++ [v] = inp.take (pos + 1) := by
          rw [List.take_add_one, hv]; rfl
        rw [this]
        exact ih _ (by omega) (by omega)

/-- The LZ77 round trip on byte sequences (42_lz77.md R158). -/
theorem lzDecode_lzEncode (b : List Byte) : lzDecode (lzEncode b) = { out := b, corrupt := false } := by
  have := lzDecodeFrom_lzEncodeFrom b b.length 0 (by omega) (by omega)
  simpa [lzDecode, lzEncode] using this

theorem length_lzEncodeFrom (inp : List Byte) (fuel pos : Nat) :
    (lzEncodeFrom inp fuel pos).length % 4 = 0 ∧ (lzEncodeFrom inp fuel pos).length ≤ 4 * (inp.length - pos) := by
  induction fuel generalizing pos with
  | zero => simp [lzEncodeFrom]
  | succ fuel ih =>
    simp only [lzEncodeFrom]
    split
    · simp
    · next v hv =>
      have hlt : pos < inp.length := (List.getElem?_eq_some_iff.mp hv).1
      split
      · next hlen =>
        have := ih (pos + (bestMatch inp pos).len)
        simp only [minMatch] at hlen
        simp only [List.length_append, backrefToken, List.length_cons, List.length_nil]; omega
      · have := ih (pos + 1)
        simp only [List.length_append, literalToken, List.length_cons, List.length_nil]; omega

/-- The encoder's output is whole tokens, at most one per input byte (42_lz77.md R149). -/
theorem length_lzEncode (b : List Byte) : (lzEncode b).length % 4 = 0 ∧ (lzEncode b).length ≤ 4 * b.length := by
  simpa [lzEncode] using length_lzEncodeFrom b b.length 0

/-! ## The selector -/

theorem sampledCount_eq (inp : List Byte) : sampledCount inp = min sampleCap inp.length := by
  simp [sampledCount, sampleOf]

theorem textCount_le (inp : List Byte) : textCount inp ≤ sampledCount inp := List.countP_le_length

/-- SAMPLE's fields fit their 11 bits (43_selector.md R172, 40_dispatch.md R110). -/
theorem sampledCount_le (inp : List Byte) : sampledCount inp ≤ sampleCap := by
  rw [sampledCount_eq]; omega

end Sys2Proof.Machine
end

