-- ==== Sys2Proof/Laws/Decode.lean ====
section
/-! SUPPORT. The decoder and the encoder (30_encoding.md R80 to R85). -/

namespace Sys2Proof

/-- A word is its four fields (30_encoding.md R80). -/
theorem word_of_fields (w : Word) : w = rsvdField w ++ clsField w ++ algField w ++ opField w := by
  apply BitVec.eq_of_getLsbD_eq
  intro k hk
  simp only [rsvdField, clsField, algField, opField, BitVec.getLsbD_append, BitVec.getLsbD_extractLsb']
  by_cases h1 : k < 4
  · simp [h1]
  · by_cases h2 : k < 6
    · simp only [h1, show k - 4 < 2 by omega, if_true, if_false, decide_true, Bool.true_and]
      congr 1; omega
    · by_cases h3 : k < 8
      · simp only [h1, show ¬ k - 4 < 2 by omega, show k - 4 - 2 < 2 by omega, if_true, if_false, decide_true, Bool.true_and]
        congr 1; omega
      · simp only [h1, show ¬ k - 4 < 2 by omega, show ¬ k - 4 - 2 < 2 by omega, show k - 4 - 2 - 2 < 24 by omega,
          if_false, decide_true, Bool.true_and]
        congr 1; omega

/-- A word that decodes has the fields of the command's word (30_encoding.md R85). -/
theorem decode_ok_fields {w : Word} {i : Instr} (h : decode w = .ok i) :
    rsvdField w ++ clsField w ++ algField w ++ opField w = encode i := by
  unfold decode decodeCompress decodeDecompress decodeClassify decodeSuggest at h
  split at h
  · cases h
  · next hr =>
    rw [not_not] at hr
    rw [hr]
    repeat' split at h
    all_goals first
      | (cases h; done)
      | (cases h; simp_all only [not_not]; rfl)

/-- Decoding what a command encodes to gives the command back. -/
theorem decode_encode (i : Instr) : decode (encode i) = .ok i := by cases i <;> decide

end Sys2Proof

namespace Sys2Proof.Machine

/-- An aligned 32-bit access to the window reaches the register at its offset (10_state.md R22, R40). -/
theorem registerMove_word {s : State} {off : Nat} (h : off < 0x40) (h4 : off % 4 = 0) (move : Reg → State) :
    registerMove { addr := s.platform.regBase + off, width := 4 } s move = .next (move (Reg.ofOffset off)) := by
  simp [registerMove, RegAccess.inWindow, RegAccess.supported, h, h4]

end Sys2Proof.Machine
end

