-- ==== Sys2Proof/Laws/PerInstr.lean ====
section
/-! SUPPORT. Statements about every command as syntax, one lemma per constructor. -/

namespace Sys2Proof.Laws

/-- The command's word decodes to the command, in a build that has it, and so does its row's word. -/
def RoundTrip.Statement (i : Instr) : Prop :=
  decodeFor true (encode i) = .ok i ∧ decodeTableWord 32 (encode i).toNat = some i

namespace RoundTrip

theorem rleEnc : Statement .rleEnc := by unfold Statement; decide
theorem lzEnc : Statement .lzEnc := by unfold Statement; decide
theorem autoEnc : Statement .autoEnc := by unfold Statement; decide
theorem rleDec : Statement .rleDec := by unfold Statement; decide
theorem lzDec : Statement .lzDec := by unfold Statement; decide
theorem classify : Statement .classify := by unfold Statement; decide
theorem suggestText : Statement .suggestText := by unfold Statement; decide
theorem suggestBinary : Statement .suggestBinary := by unfold Statement; decide
theorem suggestMixed : Statement .suggestMixed := by unfold Statement; decide

end RoundTrip

end Sys2Proof.Laws
end

