-- ==== Sys2Proof/Tests/Slice0.lean ====
section
/-! SUPPORT. Tests from the spec's own words and vectors (95_test_vectors.md), and for every obligation with hypotheses a
witness that meets them. -/

namespace Sys2Proof.Tests

open Sys2Proof Sys2Proof.Machine

/-! ## Decoding: words written out from 30_encoding.md R80 (RSVD, then CLS ALG, then OP) -/

theorem test_decode_rleEnc : decode 0b00000000_00000000_00000000_0000_0001#32 = .ok .rleEnc := by decide
theorem test_decode_lzEnc : decode 0b00000000_00000000_00000000_0001_0001#32 = .ok .lzEnc := by decide
theorem test_decode_autoEnc : decode 0b00000000_00000000_00000000_0010_0001#32 = .ok .autoEnc := by decide
theorem test_decode_rleDec : decode 0b00000000_00000000_00000000_0000_0010#32 = .ok .rleDec := by decide
theorem test_decode_lzDec : decode 0b00000000_00000000_00000000_0001_0010#32 = .ok .lzDec := by decide
theorem test_decode_classify : decode 0b00000000_00000000_00000000_0000_0011#32 = .ok .classify := by decide
theorem test_decode_suggestText : decode 0b00000000_00000000_00000000_0000_0100#32 = .ok .suggestText := by decide
theorem test_decode_suggestBinary : decode 0b00000000_00000000_00000000_0100_0100#32 = .ok .suggestBinary := by decide
theorem test_decode_suggestMixed : decode 0b00000000_00000000_00000000_1000_0100#32 = .ok .suggestMixed := by decide

/-- The illegal words of 95_test_vectors.md section 2.8. -/
theorem test_illegal_words :
    decode 0x00000000#32 = .error .reservedOp ∧ decode 0x00000005#32 = .error .reservedOp ∧
      decode 0x0000000F#32 = .error .reservedOp ∧ decode 0x00000031#32 = .error .illegalAlg ∧
      decode 0x00000022#32 = .error .illegalAlg ∧ decode 0x00000032#32 = .error .illegalAlg ∧
      decode 0x00000013#32 = .error .illegalAlg ∧ decode 0x00000043#32 = .error .illegalCls ∧
      decode 0x00000014#32 = .error .illegalAlg ∧ decode 0x000000C4#32 = .error .illegalCls ∧
      decode 0x00000041#32 = .error .illegalCls ∧ decode 0x00000082#32 = .error .illegalCls ∧
      decode 0x00000101#32 = .error .reservedBits ∧ decode 0x80000001#32 = .error .reservedBits := by decide

/-! ## WellFormed: each check refuses an ill-formed term -/

theorem test_classify_needs_selector : Instr.classify.wellFormed false = false := by decide
theorem test_suggest_needs_selector : Instr.suggestMixed.wellFormed false = false := by decide
theorem test_gate_rejects_by_name : decodeFor false 0x00000003#32 = .error .noSelector := by decide
theorem test_access_below_window : (RegAccess.mk 0xFFF 4).inWindow 0x1000 = false := by decide
theorem test_access_above_window : (RegAccess.mk 0x1040 4).inWindow 0x1000 = false := by decide
theorem test_access_narrow : (RegAccess.mk 0x1004 2).supported 0x1000 = false := by decide
theorem test_access_unaligned : (RegAccess.mk 0x1006 4).wellFormed 0x1000 = false := by decide

/-! ## The commands, from 95_test_vectors.md -/

/-- An idle block right after reset with the source bytes at 0x1000 and `cap` bytes of destination at 0x2000. -/
def block (src : List Byte) (cap : Nat) : State :=
  { State.reset with
    srcAddr := 0x1000#32
    srcLen := BitVec.ofNat 32 src.length
    dstAddr := 0x2000#32
    dstCap := BitVec.ofNat 32 cap
    mem := Memory.writeList [] 0x1000 src }

/-- The outcome is a next state with these bytes at 0x2000 and these result registers. -/
def ends (o : Host.Outcome State Fault Refusal) (out : List Byte) (status result sample : Word) : Bool :=
  match o with
  | .next t =>
    decide (t.outLen = BitVec.ofNat 32 out.length) && decide (t.status = status) && decide (t.result = result) &&
      decide (t.sample = sample) && decide (t.mem.readList 0x2000 out.length = out)
  | .fault _ => false
  | .refused _ => false

/-- "aaaabbbccd". -/
def sampleText : List Byte := [0x61, 0x61, 0x61, 0x61, 0x62, 0x62, 0x62, 0x63, 0x63, 0x64]

/-- Vector E12. -/
theorem test_rleEnc_runs : ends (exec .rleEnc (block sampleText 8))
    [0x04, 0x61, 0x03, 0x62, 0x02, 0x63, 0x01, 0x64] 0x00000002#32 0#32 0#32 = true := by decide +kernel

/-- Vector E13: the overflow is inside the second token. -/
theorem test_rleEnc_overflow : ends (exec .rleEnc (block [0x61, 0x62, 0x63] 3))
    [0x01, 0x61, 0x01] 0x00000506#32 0#32 0#32 = true := by decide +kernel

/-- Vector D5: the dangling byte sets TRUNC. -/
theorem test_rleDec_dangling : ends (exec .rleDec (block [0x03, 0x41, 0x07] 3))
    [0x41, 0x41, 0x41] 0x0000000A#32 0#32 0#32 = true := by decide +kernel

/-- Vector D8. -/
theorem test_rleDec_overflow : ends (exec .rleDec (block [0xFF, 0x41] 10))
    (List.replicate 10 0x41) 0x00000506#32 0#32 0#32 = true := by decide +kernel

/-- Vector Z6. -/
theorem test_lzEnc_run : ends (exec .lzEnc (block (List.replicate 6 0x61) 16))
    [0, 0, 0, 0x61, 0, 0, 0, 0x61, 0, 0, 0, 0x61, 0x00, 0x03, 0x03, 0x00] 0x00000002#32 0#32 0#32 = true := by
  decide +kernel

/-- Vector Z18: of two candidates of length 3 the lowest index wins, so the offset is 6. -/
theorem test_lzEnc_tie_break : ends (exec .lzEnc (block [0, 1, 2, 0, 1, 2, 0, 1, 2, 0xFF] 24))
    [0, 0, 0, 0, 0, 0, 0, 1, 0, 0, 0, 2, 0, 3, 3, 0, 0, 6, 3, 0, 0, 0, 0, 0xFF] 0x00000002#32 0#32 0#32 = true := by
  decide +kernel

/-- Vector Y9: a copy that reads what it appended; the fourth byte is ignored. -/
theorem test_lzDec_overlapping_copy : ends (exec .lzDec (block [0, 0, 0, 0x41, 0, 0, 0, 0x42, 0, 2, 4, 9] 16))
    [0x41, 0x42, 0x41, 0x42, 0x41, 0x42] 0x00000002#32 0#32 0#32 = true := by decide +kernel

/-- Vector Y14: CORRUPT_STREAM with the destination exactly full. -/
theorem test_lzDec_corrupt : ends (exec .lzDec (block [0, 0, 0, 0x41, 0, 0, 0, 0x42, 0, 5, 3, 0] 2))
    [0x41, 0x42] 0x00000406#32 0#32 0#32 = true := by decide +kernel

/-- Vector K9: exactly 0.05 is Mixed. -/
theorem test_classify_boundary : ends (exec .classify (block (0x61 :: List.replicate 19 0x00) 0))
    [] 0x00000002#32 0x00000006#32 0x00010014#32 = true := by decide +kernel

/-- Vector K13: the empty sample is Binary. -/
theorem test_classify_empty : ends (exec .classify (block [] 0)) [] 0x00000002#32 0x00000005#32 0#32 = true := by
  decide +kernel

/-- The block of vector G5: every operand register all ones. -/
def allOnes : State :=
  { State.reset with srcAddr := 0xFFFFFFFF#32, srcLen := 0xFFFFFFFF#32, dstAddr := 0xFFFFFFFF#32, dstCap := 0xFFFFFFFF#32 }

/-- Vectors G1 and G5. -/
theorem test_suggestText : ends (exec .suggestText allOnes) [] 0x00000002#32 0x00000040#32 0#32 = true := by decide +kernel

/-- Vector G2. -/
theorem test_suggestBinary : ends (exec .suggestBinary allOnes) [] 0x00000002#32 0x00000050#32 0#32 = true := by
  decide +kernel

/-- Vector G3. -/
theorem test_suggestMixed : ends (exec .suggestMixed allOnes) [] 0x00000002#32 0x00000050#32 0#32 = true := by
  decide +kernel

/-- Vector A6: RESULT and SAMPLE are kept on overflow. -/
theorem test_autoEnc_overflow : ends (exec .autoEnc (block sampleText 4))
    [0x04, 0x61, 0x03, 0x62] 0x00000506#32 0x00000044#32 0x000A000A#32 = true := by decide +kernel

/-- As vector A3, with one byte of each kind: Mixed takes the LZ77 encoder. -/
theorem test_autoEnc_mixed : ends (exec .autoEnc (block [0x61, 0x00] 8))
    [0, 0, 0, 0x61, 0, 0, 0, 0x00] 0x00000002#32 0x00000056#32 0x00010002#32 = true := by decide +kernel

/-- Vector X2. -/
theorem test_range : ends (exec .lzEnc { block [] 16 with srcAddr := 0xFFFFFFFF#32, srcLen := 2#32 })
    [] 0x00000206#32 0#32 0#32 = true := by decide +kernel

/-- Vector X8. -/
theorem test_overlap : ends (exec .lzEnc { block [1, 2, 3, 4] 0x11 with dstAddr := 0xFF0#32 })
    [] 0x00000306#32 0#32 0#32 = true := by decide +kernel

/-- Vector X11: ILLEGAL_CMD before RANGE. -/
theorem test_illegal_before_range :
    ends (step ({ allOnes with inputs := [] }.withFetchWord 32 0x22)) [] 0x00000106#32 0#32 0#32 = true := by decide +kernel

/-- CAPS of a build with the selector (10_state.md R23). -/
theorem test_caps : capsWord true = 0x10000F01#32 ∧ capsWord false = 0x10000F00#32 := by decide

/-! ## Witnesses: for each obligation with hypotheses, states and operands that meet them -/

/-- A block with a command latched and these moves pending. -/
def busyBlock (moves : List HostMove) : State :=
  { block [0x61] 8 with status := acceptedStatus, cmdLatch := 0x00000001#32, inputs := moves }

/-- An idle block with these moves pending. -/
def idleBlock (moves : List HostMove) : State := { block [0x61] 8 with inputs := moves }

theorem backed_without_holes {p : Platform} (h : p.holes = []) (r : Region) : Backed p r := by
  intro a _ _
  simp [Platform.admits, h]

/-- On a platform without holes a command whose ranges pass is unobstructed. -/
theorem unobstructed_of {s : State} (out : List Byte) (h : s.platform.holes = []) (hr : rangeFails (bufferRanges s) = false)
    (ho : overlapFails (bufferRanges s) = false) : Unobstructed s out :=
  ⟨(rangesPass_iff _).mpr ⟨hr, ho⟩, backed_without_holes h _, backed_without_holes h _⟩

theorem unobstructed_block (src out : List Byte) (cap : Nat) (h : src.length ≤ 4096) (hc : cap ≤ 4096) :
    Unobstructed (block src cap) out := by
  have h1 : (BitVec.ofNat 32 src.length).toNat = src.length := by rw [BitVec.toNat_ofNat]; omega
  have h2 : (BitVec.ofNat 32 cap).toNat = cap := by rw [BitVec.toNat_ofNat]; omega
  have e : bufferRanges (block src cap) = { src := { base := 4096, n := src.length }, dst := { base := 8192, n := cap } } := by
    simp [bufferRanges, sourceRegion, destinationRegion, block, h1, h2]
  refine ⟨?_, backed_without_holes rfl _, backed_without_holes rfl _⟩
  rw [e]
  simp only [RangesPass, addressLimit]
  omega

/-- Some command completes on some block: the next state of `exec`. -/
theorem witness_exec_next {i : Instr} (hi : IsBufferCommand i) (src : List Byte) (cap : Nat) (h : src.length ≤ 4096)
    (hc : cap ≤ 4096) : ∃ t, exec i (block src cap) = .next t :=
  ⟨_, buffer_completes hi (unobstructed_block src _ cap h hc)⟩

theorem witness_IllegalWordsCompleteWithIllegalCmd :
    (IllegalWord true 0x80000001#32 ∧ IllegalWord true 0x00000000#32 ∧ IllegalWord true 0x00000005#32 ∧
      IllegalWord true 0x00000031#32 ∧ IllegalWord true 0x00000022#32 ∧ IllegalWord true 0x00000014#32 ∧
      IllegalWord true 0x00000041#32 ∧ IllegalWord true 0x000000C4#32 ∧ IllegalWord false 0x00000003#32) ∧
      ¬ IllegalWord true 0x00000003#32 ∧ ¬ IllegalWord false 0x00000021#32 := by
  unfold IllegalWord
  refine ⟨⟨?_, ?_, ?_, ?_, ?_, ?_, ?_, ?_, ?_⟩, ?_, ?_⟩ <;> decide

theorem witness_BusyStepExecutesLatchedCommand :
    (busyBlock []).busy = true ∧ decode (busyBlock []).cmdLatch = .ok .rleEnc ∧ (busyBlock []).inputs = [] ∧
      (busyBlock [.engine]).busy = true ∧ (busyBlock [.engine]).inputs = .engine :: [] ∧
      (busyBlock [.wait]).busy = true ∧ (busyBlock [.wait]).inputs = .wait :: [] := by decide

theorem witness_PlacedWordIsExecutedNext : decode 0x00000012#32 = .ok .lzDec := by decide

theorem witness_IdleEngineHasNoStep :
    (idleBlock []).busy = false ∧ (idleBlock []).inputs = [] ∧ (idleBlock [.engine]).busy = false ∧
      (idleBlock [.engine]).inputs = .engine :: [] ∧ (idleBlock [.wait]).busy = false ∧
      (idleBlock [.wait]).inputs = .wait :: [] := by decide

theorem witness_CommandWriteIsAccepted :
    (idleBlock [.write ⟨0x04, 4⟩ 0x00000022#32]).busy = false ∧ IllegalWord true 0x00000022#32 ∧
      (idleBlock [.write ⟨0x04, 4⟩ 0x00000022#32]).inputs =
        .write { addr := (idleBlock []).platform.regBase + 0x04, width := 4 } 0x00000022#32 :: [] := by
  unfold IllegalWord; decide

theorem witness_WritesWhileBusyAreIgnored :
    (busyBlock [.write ⟨0x3C, 4⟩ 1#32]).busy = true ∧ (RegAccess.mk 0x00 4).wellFormed 0 = true ∧
      (RegAccess.mk 0x3C 4).wellFormed 0 = true ∧
      (busyBlock [.write ⟨0x3C, 4⟩ 1#32]).inputs = .write ⟨0x3C, 4⟩ 1#32 :: [] := by decide

theorem witness_OperandRegistersHoldWhatIsWritten :
    ∀ r ∈ [Reg.srcAddr, .srcLen, .dstAddr, .dstCap],
      (idleBlock [.write (regAccess State.reset.platform r) 7#32]).busy = false ∧
        (idleBlock [.write (regAccess State.reset.platform r) 7#32]).inputs =
          .write (regAccess (idleBlock []).platform r) 7#32 :: [] := by decide

theorem witness_ReadOnlyRegistersIgnoreWrites :
    ∀ off ∈ [0x00, 0x08, 0x1C, 0x20, 0x24, 0x28, 0x2C, 0x30, 0x34, 0x38, 0x3C],
      (idleBlock [.write ⟨off, 4⟩ 7#32]).inputs =
        .write { addr := (idleBlock []).platform.regBase + off, width := 4 } 7#32 :: [] := by decide

theorem witness_RegisterReadsFollowTheMap :
    ∀ off ∈ [0x00, 0x04, 0x08, 0x0C, 0x10, 0x14, 0x18, 0x1C, 0x20, 0x24, 0x28, 0x3C],
      off < 0x40 ∧ off % 4 = 0 ∧ (idleBlock [.read ⟨off, 4⟩]).busy = false ∧
        (idleBlock [.read ⟨off, 4⟩]).inputs =
          .read { addr := (idleBlock []).platform.regBase + off, width := 4 } :: [] := by decide

theorem witness_BusyReadsDoNotShowResults :
    ∃ t t', (busyBlock [.read ⟨0x20, 4⟩]).busy = true ∧ step (busyBlock [.read ⟨0x20, 4⟩]) = .next t ∧
      step { busyBlock [.read ⟨0x20, 4⟩] with outLen := 1#32, result := 2#32, sample := 3#32 } = .next t' :=
  ⟨_, _, by decide, rfl, rfl⟩

theorem witness_UnsupportedAccessesAreRefused :
    (0x00 < 0x40 ∧ (2 ≠ 4 ∨ 0x00 % 4 ≠ 0)) ∧ (0x3F < 0x40 ∧ (4 ≠ 4 ∨ 0x3F % 4 ≠ 0)) ∧
      (idleBlock [.write ⟨0x3F, 4⟩ 1#32]).inputs = .write ⟨(idleBlock []).platform.regBase + 0x3F, 4⟩ 1#32 :: [] ∧
      (idleBlock [.read ⟨0x00, 2⟩]).inputs = .read ⟨(idleBlock []).platform.regBase + 0x00, 2⟩ :: [] := by decide

/-- A block whose host has handed over the buffers of RLE.ENC, with these moves pending. -/
def claimedBlock (moves : List HostMove) : State :=
  { acceptCommand 0x00000001#32 (block [1, 2] 8) with inputs := moves }

/-- An accepted write; the first and the last byte of each claimed buffer; a step that must keep the claims; and STATUS reads of
both values of BUSY. -/
theorem witness_BuffersAreTheEnginesUntilIdleIsRead :
    ((idleBlock [.write ⟨0x04, 4⟩ 0x00000001#32]).busy = false ∧
      (idleBlock [.write ⟨0x04, 4⟩ 0x00000001#32]).inputs =
        .write { addr := (idleBlock []).platform.regBase + 0x04, width := 4 } 0x00000001#32 :: []) ∧
      (∃ r ∈ (claimedBlock [.load 0x1000#32]).claims,
        r.src.has 0x1000 = true ∧ r.src.has 0x1001 = true ∧ r.dst.has 0x2000 = true ∧ r.dst.has 0x2007 = true) ∧
      (claimedBlock [.wait]).busy = true ∧ (∃ t, step (claimedBlock [.wait]) = .next t) ∧
      (∃ t, step (claimedBlock [.read ⟨0x0C, 4⟩]) = .next t) ∧
      (idleBlock [.read ⟨0x08, 4⟩]).busy = false ∧ (busyBlock [.read ⟨0x08, 4⟩]).busy = true ∧
      (∃ t, exec .rleEnc (block [1, 2] 8) = .next t) :=
  ⟨by decide, ⟨bufferRanges (block [1, 2] 8), by decide, by decide⟩, by decide, ⟨_, rfl⟩, ⟨_, rfl⟩, by decide, by decide,
    witness_exec_next (.inl rfl) _ _ (by decide) (by decide)⟩

/-- The store and the load of a claimed byte. -/
theorem witness_claimed_accesses :
    (claimedBlock [.store 0x2007#32 5#8]).inputs = .store 0x2007#32 5#8 :: [] ∧
      (claimedBlock [.load 0x1000#32]).inputs = .load 0x1000#32 :: [] := by decide

theorem witness_HostAccessesOrdinaryMemory :
    ∀ move ∈ [HostMove.store 0x1000#32 5#8, .load 0x1000#32],
      claimed (idleBlock [move]).claims (0x1000#32).toNat = false ∧
        (idleBlock [move]).platform.admits (0x1000#32).toNat = true ∧ (idleBlock [move]).inputs = move :: [] := by decide

/-- A reset of a busy and of an idle block, and the bytes beside the destination range. -/
theorem witness_ResetRestoresRegistersAndKeepsMemory :
    (busyBlock [.reset]).inputs = .reset :: [] ∧ (idleBlock [.reset]).busy = false ∧
      (destinationRegion (busyBlock [.reset])).has 0x1FFF = false ∧
      (destinationRegion (busyBlock [.reset])).has 0x2008 = false := by decide

theorem witness_RleEncWritesTheEncoding :
    Unobstructed (block sampleText 8) (rleEncode (sourceBytes (block sampleText 8))) ∧
      (rleEncode (sourceBytes (block sampleText 8))).length ≤ (block sampleText 8).dstCap.toNat :=
  ⟨unobstructed_block _ _ _ (by decide) (by decide), by decide +kernel⟩

theorem witness_RleDecWritesTheDecoding :
    Unobstructed (block [3, 0x41, 7] 3) (rleDecode (sourceBytes (block [3, 0x41, 7] 3))) ∧
      (rleDecode (sourceBytes (block [3, 0x41, 7] 3))).length ≤ (block [3, 0x41, 7] 3).dstCap.toNat :=
  ⟨unobstructed_block _ _ _ (by decide) (by decide), by decide +kernel⟩

theorem witness_LzEncWritesTheEncoding :
    Unobstructed (block sampleText 40) (lzEncode (sourceBytes (block sampleText 40))) ∧
      (lzEncode (sourceBytes (block sampleText 40))).length ≤ (block sampleText 40).dstCap.toNat :=
  ⟨unobstructed_block _ _ _ (by decide) (by decide), by decide +kernel⟩

theorem witness_LzDecWritesTheDecoding :
    (lzDecode (sourceBytes (block [0, 0, 0, 0x41, 0, 1, 5, 9] 6))).corrupt = false ∧
      Unobstructed (block [0, 0, 0, 0x41, 0, 1, 5, 9] 6) (lzDecode (sourceBytes (block [0, 0, 0, 0x41, 0, 1, 5, 9] 6))).out ∧
      (lzDecode (sourceBytes (block [0, 0, 0, 0x41, 0, 1, 5, 9] 6))).out.length ≤
        (block [0, 0, 0, 0x41, 0, 1, 5, 9] 6).dstCap.toNat :=
  ⟨by decide +kernel, unobstructed_block _ _ _ (by decide) (by decide), by decide +kernel⟩

/-- The sample that ends exactly at `2^32` (95_test_vectors.md section 2.5). -/
theorem witness_ClassifyReportsClassAndCounts :
    ({ State.reset with srcAddr := 0xFFFFFC00#32, srcLen := 0x00010000#32 } : State).clsPresent = true ∧
      (0xFFFFFC00#32).toNat + min (0x00010000#32).toNat 1024 ≤ 4294967296 ∧
      Backed State.reset.platform (sampleRegion { State.reset with srcAddr := 0xFFFFFC00#32, srcLen := 0x00010000#32 }) :=
  ⟨rfl, by decide, backed_without_holes rfl _⟩

theorem witness_SuggestReportsTheAlgorithm : allOnes.clsPresent = true := by decide

/-- A Text, a Binary and a Mixed source whose output fits. -/
theorem witness_AutoEncResolvesAndEncodes :
    (classify (sourceBytes (block [0x61] 2)) = .text ∧ Unobstructed (block [0x61] 2) (rleEncode (sourceBytes (block [0x61] 2))) ∧
      (rleEncode (sourceBytes (block [0x61] 2))).length ≤ (block [0x61] 2).dstCap.toNat) ∧
      (classify (sourceBytes (block [0] 4)) = .binary ∧ Unobstructed (block [0] 4) (lzEncode (sourceBytes (block [0] 4))) ∧
        (lzEncode (sourceBytes (block [0] 4))).length ≤ (block [0] 4).dstCap.toNat) ∧
      (classify (sourceBytes (block [0x61, 0] 8)) = .mixed ∧
        Unobstructed (block [0x61, 0] 8) (lzEncode (sourceBytes (block [0x61, 0] 8))) ∧
        (lzEncode (sourceBytes (block [0x61, 0] 8))).length ≤ (block [0x61, 0] 8).dstCap.toNat) :=
  ⟨⟨by decide +kernel, unobstructed_block _ _ _ (by decide) (by decide), by decide +kernel⟩,
    ⟨by decide +kernel, unobstructed_block _ _ _ (by decide) (by decide), by decide +kernel⟩,
    ⟨by decide +kernel, unobstructed_block _ _ _ (by decide) (by decide), by decide +kernel⟩⟩

/-- A block of a build without the selector (vector A7). -/
def blockWithoutSelector : State := { block sampleText 40 with clsPresent := false }

theorem witness_BuildWithoutSelector :
    blockWithoutSelector.clsPresent = false ∧
      Unobstructed blockWithoutSelector (lzEncode (sourceBytes blockWithoutSelector)) ∧
      (lzEncode (sourceBytes blockWithoutSelector)).length ≤ blockWithoutSelector.dstCap.toNat :=
  ⟨rfl, unobstructed_of _ rfl (by decide +kernel) (by decide +kernel), by decide +kernel⟩

/-- Vectors X2 and X4, and the sample one byte past the last that fits: ranges that pass `2^32` by one byte. -/
theorem witness_RangeErrorBeforeAnyAccess :
    IsBufferCommand .lzEnc ∧
      4294967296 < ({ block [] 16 with srcAddr := 0xFFFFFFFF#32, srcLen := 2#32 } : State).srcAddr.toNat +
        ({ block [] 16 with srcAddr := 0xFFFFFFFF#32, srcLen := 2#32 } : State).srcLen.toNat ∧
      4294967296 < ({ block [] 0x11 with dstAddr := 0xFFFFFFF0#32 } : State).dstAddr.toNat +
        ({ block [] 0x11 with dstAddr := 0xFFFFFFF0#32 } : State).dstCap.toNat ∧
      (block [] 16).clsPresent = true ∧
      4294967296 < ({ block [] 16 with srcAddr := 0xFFFFFC01#32, srcLen := 0x00010000#32 } : State).srcAddr.toNat +
        min ({ block [] 16 with srcAddr := 0xFFFFFC01#32, srcLen := 0x00010000#32 } : State).srcLen.toNat 1024 := by
  unfold IsBufferCommand
  refine ⟨?_, ?_, ?_, ?_, ?_⟩ <;> decide

/-- The block of vector X7. -/
def blockX7 : State := { block [1, 2, 3, 4] 16 with dstAddr := 0x1003#32 }

/-- The block of vector X8. -/
def blockX8 : State := { block [1, 2, 3, 4] 0x11 with dstAddr := 0x0FF0#32 }

/-- Buffers that share one byte at either end. -/
theorem witness_OverlapErrorBeforeAnyAccess :
    IsBufferCommand .lzEnc ∧ blockX7.srcAddr.toNat + blockX7.srcLen.toNat ≤ 4294967296 ∧
      blockX7.dstAddr.toNat + blockX7.dstCap.toNat ≤ 4294967296 ∧ 0 < blockX7.srcLen.toNat ∧ 0 < blockX7.dstCap.toNat ∧
      blockX7.srcAddr.toNat < blockX7.dstAddr.toNat + blockX7.dstCap.toNat ∧
      blockX7.dstAddr.toNat < blockX7.srcAddr.toNat + blockX7.srcLen.toNat ∧
      blockX8.srcAddr.toNat + blockX8.srcLen.toNat ≤ 4294967296 ∧
      blockX8.dstAddr.toNat + blockX8.dstCap.toNat ≤ 4294967296 ∧ 0 < blockX8.srcLen.toNat ∧ 0 < blockX8.dstCap.toNat ∧
      blockX8.srcAddr.toNat < blockX8.dstAddr.toNat + blockX8.dstCap.toNat ∧
      blockX8.dstAddr.toNat < blockX8.srcAddr.toNat + blockX8.srcLen.toNat := by
  unfold IsBufferCommand
  refine ⟨?_, ?_, ?_, ?_, ?_, ?_, ?_, ?_, ?_, ?_, ?_, ?_, ?_⟩ <;> simp [blockX7, blockX8, block]

/-- Vectors E16 (capacity 0) and A6. -/
theorem witness_OverflowWritesExactlyTheCapacity :
    (IsBufferCommand .rleEnc ∧ Unobstructed (block [0x61] 0) (outputStream true .rleEnc (sourceBytes (block [0x61] 0))) ∧
      (block [0x61] 0).dstCap.toNat < (outputStream true .rleEnc (sourceBytes (block [0x61] 0))).length) ∧
      (IsBufferCommand .autoEnc ∧
        Unobstructed (block sampleText 4) (outputStream true .autoEnc (sourceBytes (block sampleText 4))) ∧
        (block sampleText 4).dstCap.toNat < (outputStream true .autoEnc (sourceBytes (block sampleText 4))).length) :=
  ⟨⟨by unfold IsBufferCommand; decide, unobstructed_block _ _ _ (by decide) (by decide), by decide +kernel⟩,
    ⟨by unfold IsBufferCommand; decide, unobstructed_block _ _ _ (by decide) (by decide), by decide +kernel⟩⟩

/-- Vector Y14: the corrupt token is met with the destination exactly full. -/
theorem witness_CorruptStreamAtFirstBadOffset :
    sourceBytes (block [0, 0, 0, 0x41, 0, 0, 0, 0x42, 0, 5, 3, 0] 2) =
        [0, 0, 0, 0x41, 0, 0, 0, 0x42] ++ 0 :: 5 :: 3 :: 0 :: [] ∧
      ([0, 0, 0, 0x41, 0, 0, 0, 0x42] : List Byte).length % 4 = 0 ∧
      lzDecode [0, 0, 0, 0x41, 0, 0, 0, 0x42] = { out := [0x41, 0x42], corrupt := false } ∧
      ([0x41, 0x42] : List Byte).length < (0 : Byte).toNat * 256 + (5 : Byte).toNat ∧
      Unobstructed (block [0, 0, 0, 0x41, 0, 0, 0, 0x42, 0, 5, 3, 0] 2) [0x41, 0x42] ∧
      ([0x41, 0x42] : List Byte).length ≤ (block [0, 0, 0, 0x41, 0, 0, 0, 0x42, 0, 5, 3, 0] 2).dstCap.toNat ∧
      ∃ t, exec .lzDec (block [0, 1, 5, 0] 0) = .next t ∧ statusErrCode t.status = 4 :=
  ⟨by decide +kernel, by decide, by decide +kernel, by decide +kernel,
    unobstructed_block _ _ _ (by decide) (by decide), by decide +kernel, _, rfl, by decide⟩

/-- A block whose last source byte, or whose first destination byte, has no memory behind it. -/
def blockWithHole (hole : Nat) : State := { block [1, 2] 8 with platform := { regBase := 0, holes := [{ base := hole, n := 1 }] } }

theorem witness_UnbackedAccessLeavesEngineStuck :
    (Instr.rleEnc.wellFormed (blockWithHole 0x1001).clsPresent = true ∧
      RangesPass (commandRanges (blockWithHole 0x1001) .rleEnc) ∧
      ∃ a, (commandRanges (blockWithHole 0x1001) .rleEnc).src.has a = true ∧ (blockWithHole 0x1001).platform.admits a = false) ∧
      (IsBufferCommand .rleEnc ∧ RangesPass (commandRanges (blockWithHole 0x2000) .rleEnc) ∧
        ∃ a, (blockWithHole 0x2000).dstAddr.toNat ≤ a ∧
          a < (blockWithHole 0x2000).dstAddr.toNat +
            min (outputStream true .rleEnc (sourceBytes (blockWithHole 0x2000))).length (blockWithHole 0x2000).dstCap.toNat ∧
          (blockWithHole 0x2000).platform.admits a = false) :=
  ⟨⟨by decide, (rangesPass_iff _).mpr (by decide +kernel), 0x1001, by decide +kernel, by decide +kernel⟩,
    by unfold IsBufferCommand; decide, (rangesPass_iff _).mpr (by decide +kernel), 0x2000, by decide +kernel,
    by decide +kernel, by decide +kernel⟩

theorem witness_BufferCommandFrame :
    ∀ i, IsBufferCommand i → ∃ t, exec i (block [0, 0, 0, 0x41] 16) = .next t :=
  fun _ hi => witness_exec_next hi _ _ (by decide) (by decide)

theorem witness_SelectorCommandFrame :
    (∃ t, exec .classify (block [0x61] 0) = .next t) ∧ (∃ t, exec .suggestText allOnes = .next t) ∧
      (∃ t, exec .suggestBinary allOnes = .next t) ∧ ∃ t, exec .suggestMixed allOnes = .next t :=
  ⟨⟨_, rfl⟩, ⟨_, rfl⟩, ⟨_, rfl⟩, ⟨_, rfl⟩⟩

theorem witness_StatusFieldsAreAsSpecified : ∃ t, exec .suggestText allOnes = .next t := ⟨_, rfl⟩

/-- Both directions: a trailing byte, and none. -/
theorem witness_TruncIsSetExactlyForTrailingBytes :
    (∃ t, exec .rleDec (block [3, 0x41, 7] 3) = .next t) ∧ (∃ t, exec .lzDec (block [0, 0, 0] 0) = .next t) ∧
      ∃ t, exec .rleDec (block [3, 0x41] 3) = .next t :=
  ⟨witness_exec_next (by simp [IsBufferCommand]) _ _ (by decide) (by decide),
    witness_exec_next (by simp [IsBufferCommand]) _ _ (by decide) (by decide),
    witness_exec_next (by simp [IsBufferCommand]) _ _ (by decide) (by decide)⟩

/-- ERRCODE 1, 2, 3, and a completion with a result. -/
theorem witness_ResultFieldsFollowTheCommandTable :
    (∃ t, exec .classify blockWithoutSelector = .next t ∧ statusErrCode t.status = 1) ∧
      (∃ t, exec .lzEnc allOnes = .next t ∧ statusErrCode t.status = 2) ∧
      (∃ t, exec .lzEnc { block [1] 8 with dstAddr := 0x1000#32 } = .next t ∧ statusErrCode t.status = 3) ∧
      ∃ t, exec .suggestMixed allOnes = .next t ∧ statusErrCode t.status = 0 :=
  ⟨⟨_, rfl, by decide⟩, ⟨_, rfl, by decide⟩, ⟨_, rfl, by decide⟩, ⟨_, rfl, by decide⟩⟩

/-- Run lengths 1, 255 and 256, at the end of the input and before another byte. -/
theorem witness_RleRunsAreSplitAt255 :
    ∀ len ∈ [1, 255, 256], 1 ≤ len ∧ ([] : List Byte).head? ≠ some 0x41#8 ∧ ([0x42] : List Byte).head? ≠ some 0x41#8 := by
  decide

/-- Adjacent tokens of equal value after a run of 256. -/
theorem witness_RleTokensAreCanonical :
    (rleEncode (List.replicate 256 0x41))[2 * 0]? = some 0xFF ∧ (rleEncode (List.replicate 256 0x41))[2 * 0 + 1]? = some 0x41 ∧
      (rleEncode (List.replicate 256 0x41))[2 * 0 + 3]? = some 0x41 := by decide +kernel

theorem witness_RleDecodesTokenByToken : ([2, 0x41] : List Byte).length % 2 = 0 := by decide

/-- Program P1 (95_test_vectors.md section 3). -/
theorem witness_RleRoundTripOnTheBlock :
    ∃ t, Unobstructed (block sampleText 20) (rleEncode (sourceBytes (block sampleText 20))) ∧
      2 * (block sampleText 20).srcLen.toNat ≤ (block sampleText 20).dstCap.toNat ∧
      exec .rleEnc (block sampleText 20) = .next t ∧ (block sampleText 20).srcLen.toNat ≤ (10#32).toNat ∧
      Unobstructed { t with srcAddr := t.dstAddr, srcLen := t.outLen, dstAddr := 0x3000#32, dstCap := 10#32 }
        (sourceBytes (block sampleText 20)) :=
  ⟨_, unobstructed_block _ _ _ (by decide) (by decide), by decide,
    buffer_completes (.inl rfl) (unobstructed_block _ _ _ (by decide) (by decide)), by decide,
    unobstructed_of _ rfl (by decide +kernel) (by decide +kernel)⟩

theorem witness_MatchLengthIsTheLongestAgreement : 3 < ([1, 2, 3, 1, 2, 3] : List Byte).length ∧ 0 < 3 := by decide

/-- A match, and no match. -/
theorem witness_BestMatchIsFirstOfTheLongest :
    0 < (bestMatch [1, 2, 3, 1, 2, 3] 3).len ∧ (bestMatch [1, 2, 3] 2).len = 0 := by decide +kernel

/-- A literal token and a back-reference token. -/
theorem witness_LzTokensHaveTheEncoderShape :
    (lzEncode [1, 2, 3, 1, 2, 3])[4 * 0]? = some 0 ∧ (lzEncode [1, 2, 3, 1, 2, 3])[4 * 0 + 3]? = some 1 ∧
      (lzEncode [1, 2, 3, 1, 2, 3])[4 * 3 + 1]? = some 3 ∧ (lzEncode [1, 2, 3, 1, 2, 3])[4 * 3 + 2]? = some 3 ∧
      (lzEncode [1, 2, 3, 1, 2, 3])[4 * 3 + 3]? = some 0 := by decide +kernel

/-- Offset 1 and offset the whole output. -/
theorem witness_BackReferenceCopyRepeatsThePattern :
    1 ≤ 1 ∧ 1 ≤ ([1, 2] : List Byte).length ∧ 1 ≤ 2 ∧ 2 ≤ ([1, 2] : List Byte).length := by decide

/-- A back-reference, one of offset 0 and one of length 0. -/
theorem witness_LzDecodesTokenByToken :
    ([0, 0, 0, 0x41] : List Byte).length % 4 = 0 ∧
      lzDecode [0, 0, 0, 0x41] = { out := [0x41], corrupt := false } ∧
      (1 = (0 : Byte).toNat * 256 + (1 : Byte).toNat ∧ 0 = (0 : Byte).toNat * 256 + (0 : Byte).toNat) ∧
      (1 ≤ ([0x41] : List Byte).length ∧ ¬ (1 = 0 ∧ (5 : Byte) = 0x00#8)) ∧
      (0 ≤ ([0x41] : List Byte).length ∧ ¬ (0 = 0 ∧ (3 : Byte) = 0x00#8)) ∧
      (1 ≤ ([0x41] : List Byte).length ∧ ¬ (1 = 0 ∧ (0 : Byte) = 0x00#8) ∧ (0 : Byte) = 0x00#8) := by decide +kernel

theorem witness_LzRoundTripOnTheBlock :
    ∃ t, Unobstructed (block sampleText 40) (lzEncode (sourceBytes (block sampleText 40))) ∧
      4 * (block sampleText 40).srcLen.toNat ≤ (block sampleText 40).dstCap.toNat ∧
      exec .lzEnc (block sampleText 40) = .next t ∧ (block sampleText 40).srcLen.toNat ≤ (10#32).toNat ∧
      Unobstructed { t with srcAddr := t.dstAddr, srcLen := t.outLen, dstAddr := 0x3000#32, dstCap := 10#32 }
        (sourceBytes (block sampleText 40)) :=
  ⟨_, unobstructed_block _ _ _ (by decide) (by decide), by decide,
    buffer_completes (.inr (.inl rfl)) (unobstructed_block _ _ _ (by decide) (by decide)), by decide,
    unobstructed_of _ rfl (by decide +kernel) (by decide +kernel)⟩

/-- The empty sample, and the exact thresholds: 19 of 20 and 1 of 20 (vectors K13, K7 and K9). -/
theorem witness_ClassFollowsTheExactThresholds :
    sampledCount [] = 0 ∧
      textCount (List.replicate 19 0x61 ++ [0x00]) = 19 ∧ sampledCount (List.replicate 19 0x61 ++ [0x00]) = 20 ∧
      textCount (0x61 :: List.replicate 19 0x00) = 1 ∧ sampledCount (0x61 :: List.replicate 19 0x00) = 20 := by decide +kernel

theorem witness_ClassifierCountsTheSample : 1024 ≤ (List.replicate 1024 (0x61 : Byte)).length := by
  rw [List.length_replicate]

/-- A Text source, a source that is not, and a build without the selector. -/
theorem witness_AutoEncAgreesWithTheChosenCodec :
    (classify (sourceBytes (block [0x61] 2)) = .text ∧ ∃ t, exec .rleEnc (block [0x61] 2) = .next t) ∧
      (classify (sourceBytes (block [0] 4)) ≠ .text ∧ ∃ t, exec .lzEnc (block [0] 4) = .next t) ∧
      (blockWithoutSelector.clsPresent = false ∧ ∃ t, exec .lzEnc blockWithoutSelector = .next t) :=
  ⟨⟨by decide +kernel, witness_exec_next (.inl rfl) _ _ (by decide) (by decide)⟩,
    ⟨by decide +kernel, witness_exec_next (.inr (.inl rfl)) _ _ (by decide) (by decide)⟩,
    rfl, _, buffer_completes (.inr (.inl rfl)) (unobstructed_of _ rfl (by decide +kernel) (by decide +kernel))⟩

/-- A busy block that agrees with `block [0x61] 8` on the operands and the source, and on little else. -/
def otherBlock : State :=
  { busyBlock [.wait] with result := 5#32, outLen := 9#32, draws := 3, mem := [(0x1000, 0x61), (0x2000, 9), (0x3000, 7)] }

theorem witness_ResultsDependOnlyOnOperandsAndSource :
    (block [0x61] 8).clsPresent = otherBlock.clsPresent ∧ (block [0x61] 8).platform = otherBlock.platform ∧
      (block [0x61] 8).srcAddr = otherBlock.srcAddr ∧ (block [0x61] 8).srcLen = otherBlock.srcLen ∧
      (block [0x61] 8).dstAddr = otherBlock.dstAddr ∧ (block [0x61] 8).dstCap = otherBlock.dstCap ∧
      sourceBytes (block [0x61] 8) = sourceBytes otherBlock := by decide +kernel

/-- The memory right after reset is in canonical form. -/
theorem witness_reset_memory : State.reset.mem.wf = true := by decide

theorem witness_StepKeepsTheInvariant : StateInv State.reset ∧ step State.reset = .next State.reset :=
  ⟨⟨by decide, .inl rfl, .inl rfl, 0, 0, by decide, by decide, by decide⟩, rfl⟩

/-- Two idle blocks on one memory, the first about to write CMD. -/
def twoBlocks : System :=
  { mem := [], draws := 0, blocks := [{ State.reset with inputs := [.write ⟨0x04, 4⟩ 0x00000004#32] }, State.reset] }

theorem witness_InstancesShareOnlyMemory :
    ∃ b sys', twoBlocks.blocks[0]? = some b ∧ twoBlocks.step 0 = .next sys' := ⟨_, _, rfl, rfl⟩

/-- The two commands of 95_test_vectors.md section 2.8. -/
theorem witness_SecondCommandWriteHasTwoOutcomes :
    (block [0x61, 0x62] 16).busy = false ∧ ∃ u, engineStep (acceptCommand 0x00000001#32 (block [0x61, 0x62] 16)) = .next u :=
  ⟨by decide, _, (engineStep_ok (i := .rleEnc) (by decide)).trans
    (buffer_completes (.inl rfl) (unobstructed_of _ rfl (by decide +kernel) (by decide +kernel)))⟩

end Sys2Proof.Tests
end

section
/-! PROOFS. The state's operations and the step, as rules the statements of 10_state.md use. -/

namespace Sys2Proof.Machine

/-! ## What a command's end leaves, field by field -/

@[simp] theorem endState_outLen (r : Ranges) (e : Effect) (s : State) :
    (endState r e s).outLen = BitVec.ofNat 32 (outputOf r e).length := rfl
@[simp] theorem endState_result (r : Ranges) (e : Effect) (s : State) : (endState r e s).result = e.result := rfl
@[simp] theorem endState_sample (r : Ranges) (e : Effect) (s : State) : (endState r e s).sample = e.sample := rfl
@[simp] theorem endState_mem (r : Ranges) (e : Effect) (s : State) :
    (endState r e s).mem = s.mem.writeList r.dst.base (outputOf r e) := rfl

/-- STATUS at a command's end: DST_OVERFLOW, or what the command's function gave (40_dispatch.md R107, R108). -/
theorem endState_status_cases (r : Ranges) (e : Effect) (s : State) :
    (endState r e s).status = completionStatus .dstOverflow false ∨
      (endState r e s).status = completionStatus e.code e.trunc := by
  rcases Nat.lt_or_ge r.dst.n e.full.length with h | h
  · exact .inl (by rw [endState_overflows h, complete_status])
  · exact .inr (by rw [endState_fits h, complete_status])

/-! ## The error codes -/

/-- The codes of the errors raised before anything is read or written (40_dispatch.md R109). -/
def IsEarlyCode (c : ErrCode) : Prop := c = .illegalCmd ∨ c = .range ∨ c = .overlap

theorem isEarlyCode_iff_bits (c : ErrCode) : IsEarlyCode c ↔ c.bits = 1#4 ∨ c.bits = 2#4 ∨ c.bits = 3#4 := by
  unfold IsEarlyCode
  cases c <;> decide

theorem bits_eq_zero_iff (c : ErrCode) : c.bits = 0#4 ↔ c = .none := by cases c <;> decide

theorem bits_toNat_le (c : ErrCode) : c.bits.toNat ≤ 5 := by cases c <;> decide

/-- The reserved bits of a completion are 0 (10_state.md R31). -/
theorem completionStatus_reserved (code : ErrCode) (trunc : Bool) :
    (completionStatus code trunc).extractLsb' 4 4 = 0 ∧ (completionStatus code trunc).extractLsb' 12 20 = 0 := by
  cases code <;> cases trunc <;> decide

/-! ## What the command functions set besides their output -/

/-- A command's function raises no error but CORRUPT_STREAM. -/
theorem effectOf_code (clsPresent : Bool) (i : Instr) (inp : List Byte) :
    (effectOf clsPresent i inp).code = .none ∨ (effectOf clsPresent i inp).code = .corruptStream := by
  cases i with
  | lzDec =>
    cases h : (lzDecode inp).corrupt
    · exact .inl (by simp [effectOf, lzDecEffect, h])
    · exact .inr (by simp [effectOf, lzDecEffect, h])
  | autoEnc => cases clsPresent <;> exact .inl rfl
  | _ => exact .inl rfl

/-- `trunc` is the decoders': an odd number of source bytes, or one that is no multiple of 4 (10_state.md R29). -/
theorem effectOf_trunc (clsPresent : Bool) (i : Instr) (inp : List Byte) :
    (effectOf clsPresent i inp).trunc = true ↔
      (i = .rleDec ∧ inp.length % 2 = 1) ∨ (i = .lzDec ∧ inp.length % 4 ≠ 0) := by
  cases i with
  | rleDec => simp [effectOf, rleDecEffect, rleTrunc]
  | lzDec => simp [effectOf, lzDecEffect, lzTrunc]
  | autoEnc => cases clsPresent <;> simp [effectOf, autoEffect]
  | _ => simp [effectOf, rleEncEffect, lzEncEffect, classifyEffect, suggestEffect]

theorem sampleLegal_zero : SampleLegal 0#32 := ⟨0, 0, by decide, by decide, by decide⟩

theorem sampleLegal_counts (inp : List Byte) : SampleLegal (sampleWord (textCount inp) (sampledCount inp)) :=
  ⟨_, _, textCount_le inp, sampledCount_le inp, rfl⟩

theorem resultLegal_suggest (c : Class) : ResultLegal (algResult (suggest c)) := by
  cases c
  · exact .inr (.inr (.inl rfl))
  · exact .inr (.inr (.inr (.inl rfl)))
  · exact .inr (.inr (.inr (.inl rfl)))

theorem resultLegal_auto (c : Class) : ResultLegal (autoResult (suggest c) c) := by
  cases c
  · exact .inr (.inr (.inr (.inr (.inl ⟨_, rfl⟩))))
  · exact .inr (.inr (.inr (.inr (.inr ⟨_, rfl⟩))))
  · exact .inr (.inr (.inr (.inr (.inr ⟨_, rfl⟩))))

/-- Every command's function sets a RESULT of the command table (10_state.md R37). -/
theorem effectOf_resultLegal (clsPresent : Bool) (i : Instr) (inp : List Byte) :
    ResultLegal (effectOf clsPresent i inp).result := by
  cases i with
  | classify => exact .inr (.inl ⟨_, rfl⟩)
  | suggestText | suggestBinary | suggestMixed => exact resultLegal_suggest _
  | autoEnc =>
    cases clsPresent
    · exact .inr (.inr (.inr (.inl rfl)))
    · exact resultLegal_auto _
  | _ => exact .inl rfl

/-- SAMPLE is set by CLASSIFY, and by AUTO.ENC in a build with the selector (10_state.md R38). -/
theorem effectOf_sample_zero {clsPresent : Bool} {i : Instr} (inp : List Byte) (hc : i ≠ .classify)
    (ha : ¬ (i = .autoEnc ∧ clsPresent = true)) : (effectOf clsPresent i inp).sample = 0#32 := by
  cases i with
  | classify => exact absurd rfl hc
  | autoEnc =>
    cases clsPresent
    · rfl
    · exact absurd ⟨rfl, rfl⟩ ha
  | _ => rfl

theorem effectOf_sampleLegal (clsPresent : Bool) (i : Instr) (inp : List Byte) :
    SampleLegal (effectOf clsPresent i inp).sample := by
  by_cases hc : i = .classify
  · subst hc; exact sampleLegal_counts inp
  · by_cases ha : i = .autoEnc ∧ clsPresent = true
    · obtain ⟨rfl, rfl⟩ := ha; exact sampleLegal_counts inp
    · rw [effectOf_sample_zero inp hc ha]; exact sampleLegal_zero

/-! ## What a command that answers a next state did -/

/-- A command that answers a next state raised an early error, or reached its end (40_dispatch.md R109). -/
theorem exec_next_cases {i : Instr} {s t : State} (h : exec i s = .next t) :
    (∃ code, IsEarlyCode code ∧ t = raiseEarly code s) ∨
      t = endState (commandRanges s i) (effectOf s.clsPresent i (bytesAt s (commandRanges s i).src)) s := by
  rcases exec_cases i s with ⟨-, e⟩ | ⟨-, ⟨-, e⟩ | ⟨-, -, e⟩ | ⟨-, e⟩ | ⟨-, e⟩⟩ <;> rw [e] at h <;> cases h
  · exact .inl ⟨_, .inl rfl, rfl⟩
  · exact .inl ⟨_, .inr (.inl rfl), rfl⟩
  · exact .inl ⟨_, .inr (.inr rfl), rfl⟩
  · exact .inr rfl

theorem exec_resultLegal {i : Instr} {s t : State} (h : exec i s = .next t) : ResultLegal t.result := by
  rcases exec_next_cases h with ⟨code, -, rfl⟩ | rfl
  · exact .inl rfl
  · rw [endState_result]; exact effectOf_resultLegal _ _ _

theorem exec_sampleLegal {i : Instr} {s t : State} (h : exec i s = .next t) : SampleLegal t.sample := by
  rcases exec_next_cases h with ⟨code, -, rfl⟩ | rfl
  · exact sampleLegal_zero
  · rw [endState_sample]; exact effectOf_sampleLegal _ _ _

/-! ## What every step keeps -/

theorem stateInv_raiseEarly {s : State} (code : ErrCode) (h : StateInv s) : StateInv (raiseEarly code s) :=
  ⟨h.mem, .inr (.inr ⟨code, false, rfl⟩), .inl rfl, sampleLegal_zero⟩

theorem exec_keeps_stateInv {i : Instr} {s t : State} (h : exec i s = .next t) (hs : StateInv s) : StateInv t :=
  ⟨exec_keeps_memory_wf h hs.mem, .inr (.inr (exec_status h)), exec_resultLegal h, exec_sampleLegal h⟩

theorem exec_keeps_build {i : Instr} {s t : State} (h : exec i s = .next t) :
    t.clsPresent = s.clsPresent ∧ t.platform = s.platform := by
  obtain ⟨out, -, -, -, -, ht⟩ := exec_frame h
  rw [ht]
  exact ⟨rfl, rfl⟩

/-- An engine's step is that of a command, or the completion of an illegal word (40_dispatch.md R101, R102). -/
theorem engineStep_next_cases {s t : State} (h : engineStep s = .next t) :
    (∃ i, exec i s = .next t) ∨ t = raiseEarly .illegalCmd s := by
  cases hd : decode s.cmdLatch with
  | ok i => exact .inl ⟨i, (engineStep_ok hd).symm.trans h⟩
  | error r =>
    rw [engineStep_error hd] at h
    cases h
    exact .inr rfl

theorem engineStep_keeps_stateInv {s t : State} (h : engineStep s = .next t) (hs : StateInv s) : StateInv t := by
  rcases engineStep_next_cases h with ⟨i, hi⟩ | rfl
  · exact exec_keeps_stateInv hi hs
  · exact stateInv_raiseEarly _ hs

theorem engineStep_keeps_build {s t : State} (h : engineStep s = .next t) :
    t.clsPresent = s.clsPresent ∧ t.platform = s.platform := by
  rcases engineStep_next_cases h with ⟨i, hi⟩ | rfl
  · exact exec_keeps_build hi
  · exact ⟨rfl, rfl⟩

theorem writeMove_busy {s : State} (r : Reg) (v : Word) (h : s.busy = true) : writeMove r v s = s := by
  simp [writeMove, h]

theorem writeMove_idle {s : State} (r : Reg) (v : Word) (h : s.busy = false) : writeMove r v s = writeIdle r v s := by
  simp [writeMove, h]

/-- A register write sets STATUS to the accepted value or leaves it, and keeps RESULT, SAMPLE, memory, build and platform. -/
theorem writeMove_frame (r : Reg) (v : Word) (s : State) :
    ((writeMove r v s).status = s.status ∨ (writeMove r v s).status = acceptedStatus) ∧
      (writeMove r v s).result = s.result ∧ (writeMove r v s).sample = s.sample ∧ (writeMove r v s).mem = s.mem ∧
      (writeMove r v s).clsPresent = s.clsPresent ∧ (writeMove r v s).platform = s.platform := by
  cases hb : s.busy with
  | true => rw [writeMove_busy r v hb]; exact ⟨.inl rfl, rfl, rfl, rfl, rfl, rfl⟩
  | false =>
    rw [writeMove_idle r v hb]
    cases r with
    | cmd => exact ⟨.inr rfl, rfl, rfl, rfl, rfl, rfl⟩
    | _ => exact ⟨.inl rfl, rfl, rfl, rfl, rfl, rfl⟩

theorem writeMove_keeps_stateInv {s : State} (r : Reg) (v : Word) (h : StateInv s) : StateInv (writeMove r v s) := by
  obtain ⟨hstatus, hresult, hsample, hmem, -, -⟩ := writeMove_frame r v s
  refine ⟨hmem ▸ h.mem, ?_, hresult ▸ h.result, hsample ▸ h.sample⟩
  rcases hstatus with e | e <;> rw [e]
  · exact h.status
  · exact .inr (.inl rfl)

/-- A step moves the state less its move by the engine, or by one move of the host; each keeps the invariant. -/
theorem step_keeps_stateInv {s t : State} (h : step s = .next t) (hs : StateInv s) : StateInv t := by
  obtain ⟨u, rest, hu, hstep⟩ := step_cases h
  have hi : StateInv u := by rw [hu]; exact ⟨hs.mem, hs.status, hs.result, hs.sample⟩
  rcases hstep with rfl | ⟨-, he⟩ | ⟨r, v, rfl⟩ | ⟨r, rfl⟩ | ⟨a, v, rfl⟩ | ⟨a, rfl⟩ | rfl
  · exact hi
  · exact engineStep_keeps_stateInv he hi
  · exact writeMove_keeps_stateInv r v hi
  · exact ⟨hi.mem, hi.status, hi.result, hi.sample⟩
  · exact ⟨storeMove_keeps_memory_wf hi.mem, hi.status, hi.result, hi.sample⟩
  · exact ⟨hi.mem, hi.status, hi.result, hi.sample⟩
  · exact ⟨wf_memoryAfterReset hi.mem, .inl rfl, .inl rfl, sampleLegal_zero⟩

theorem step_keeps_build {s t : State} (h : step s = .next t) :
    t.clsPresent = s.clsPresent ∧ t.platform = s.platform := by
  obtain ⟨u, rest, hu, hstep⟩ := step_cases h
  have hb : u.clsPresent = s.clsPresent ∧ u.platform = s.platform := by rw [hu]; exact ⟨rfl, rfl⟩
  rw [← hb.1, ← hb.2]
  rcases hstep with rfl | ⟨-, he⟩ | ⟨r, v, rfl⟩ | ⟨r, rfl⟩ | ⟨a, v, rfl⟩ | ⟨a, rfl⟩ | rfl
  · exact ⟨rfl, rfl⟩
  · exact engineStep_keeps_build he
  · obtain ⟨-, -, -, -, hc, hp⟩ := writeMove_frame r v u
    exact ⟨hc, hp⟩
  · exact ⟨rfl, rfl⟩
  · exact ⟨rfl, rfl⟩
  · exact ⟨rfl, rfl⟩
  · exact ⟨rfl, rfl⟩

/-! ## STATUS, RESULT and SAMPLE after a command -/

theorem statusTrunc_completionStatus_iff (code : ErrCode) (trunc : Bool) :
    statusTrunc (completionStatus code trunc) = true ↔
      statusErrCode (completionStatus code trunc) = 0 ∧ trunc = true := by
  simp [bits_eq_zero_iff, and_comm]

theorem bytesAt_length (s : State) (r : Region) : (bytesAt s r).length = r.n := Memory.length_readList _ _ _

/-- A decoder's `trunc` in terms of SRC_LEN (10_state.md R29). -/
theorem effectOf_trunc_srcLen (s : State) (i : Instr) :
    (effectOf s.clsPresent i (bytesAt s (commandRanges s i).src)).trunc = true ↔
      (i = .rleDec ∧ s.srcLen.toNat % 2 = 1) ∨ (i = .lzDec ∧ s.srcLen.toNat % 4 ≠ 0) := by
  rw [effectOf_trunc, bytesAt_length]
  exact or_congr (and_congr_right fun h => by rw [h]; rfl) (and_congr_right fun h => by rw [h]; rfl)

theorem resultLegal_fields {w : Word} (h : ResultLegal w) :
    resultClass w ≠ 3 ∧ resultAlg w ≠ 2 ∧ resultAlg w ≠ 3 ∧ w.extractLsb' 3 1 = 0 ∧ w.extractLsb' 7 25 = 0 := by
  rcases h with rfl | ⟨c, rfl⟩ | rfl | rfl | ⟨c, rfl⟩ | ⟨c, rfl⟩
  · decide
  · cases c <;> decide
  · decide
  · decide
  · cases c <;> decide
  · cases c <;> decide

/-- Bits `lo` to `lo + len - 1` of SAMPLE, as a number. -/
theorem sampleWord_field {t m : Nat} (lo len : Nat) (ht : t ≤ 1024) (hm : m ≤ 1024) :
    ((sampleWord t m).extractLsb' lo len).toNat = (t * 65536 + m) / 2 ^ lo % 2 ^ len := by
  rw [sampleWord_eq_ofNat ht hm, BitVec.extractLsb'_toNat, BitVec.toNat_ofNat,
    Nat.mod_eq_of_lt (show t * 65536 + m < 2 ^ 32 by omega), Nat.shiftRight_eq_div_pow]

theorem sampleLegal_fields {w : Word} (h : SampleLegal w) :
    (sampleTextCount w).toNat ≤ (sampleSampled w).toNat ∧ (sampleSampled w).toNat ≤ 1024 ∧
      w.extractLsb' 11 5 = 0#5 ∧ w.extractLsb' 27 5 = 0#5 := by
  obtain ⟨t, m, htm, hm, rfl⟩ := h
  have hm : m ≤ 1024 := hm
  have field := fun lo len => sampleWord_field (t := t) lo len (htm.trans hm) hm
  unfold sampleTextCount sampleSampled
  refine ⟨?_, ?_, BitVec.eq_of_toNat_eq ?_, BitVec.eq_of_toNat_eq ?_⟩
  · rw [field, field]; omega
  · rw [field]; omega
  · rw [field, BitVec.toNat_zero]; omega
  · rw [field, BitVec.toNat_zero]; omega

@[simp] theorem resultClassValid_classResult (c : Class) : resultClassValid (classResult c) = true := by
  cases c <;> decide

@[simp] theorem resultClassValid_algResult (a : Alg) : resultClassValid (algResult a) = false := by
  cases a <;> decide

@[simp] theorem resultClassValid_autoResult (a : Alg) (c : Class) : resultClassValid (autoResult a c) = true := by
  cases a <;> cases c <;> decide

@[simp] theorem resultClassValid_zero : resultClassValid 0#32 = false := by decide

/-- CLASS_VALID is CLASSIFY's, and AUTO.ENC's in a build with the selector (10_state.md R37). -/
theorem effectOf_classValid (clsPresent : Bool) (i : Instr) (inp : List Byte) :
    resultClassValid (effectOf clsPresent i inp).result = true ↔ i = .classify ∨ (i = .autoEnc ∧ clsPresent = true) := by
  cases i with
  | autoEnc => cases clsPresent <;> simp [effectOf, autoEffect, -algResult_lz]
  | classify => simp [effectOf, classifyEffect]
  | suggestText | suggestBinary | suggestMixed => simp [effectOf, suggestEffect]
  | _ => simp [effectOf, rleEncEffect, rleDecEffect, lzEncEffect, lzDecEffect]

@[simp] theorem resultAlgValid_classResult (c : Class) : resultAlgValid (classResult c) = false := by
  cases c <;> decide

@[simp] theorem resultAlgValid_algResult (a : Alg) : resultAlgValid (algResult a) = true := by
  cases a <;> decide

@[simp] theorem resultAlgValid_autoResult (a : Alg) (c : Class) : resultAlgValid (autoResult a c) = true := by
  cases a <;> cases c <;> decide

@[simp] theorem resultAlgValid_zero : resultAlgValid 0#32 = false := by decide

/-- ALG_VALID is SUGGEST's and AUTO.ENC's (10_state.md R37). -/
theorem effectOf_algValid (clsPresent : Bool) (i : Instr) (inp : List Byte) :
    resultAlgValid (effectOf clsPresent i inp).result = true ↔
      i = .suggestText ∨ i = .suggestBinary ∨ i = .suggestMixed ∨ i = .autoEnc := by
  cases i with
  | autoEnc => cases clsPresent <;> simp [effectOf, autoEffect, -algResult_lz]
  | classify => simp [effectOf, classifyEffect]
  | suggestText | suggestBinary | suggestMixed => simp [effectOf, suggestEffect]
  | _ => simp [effectOf, rleEncEffect, rleDecEffect, lzEncEffect, lzDecEffect]

/-- A command that reaches its end reports no early error. -/
theorem endState_not_early {r : Ranges} {e : Effect} (s : State) (he : e.code = .none ∨ e.code = .corruptStream) :
    ¬ (statusErrCode (endState r e s).status = 1 ∨ statusErrCode (endState r e s).status = 2 ∨
      statusErrCode (endState r e s).status = 3) := by
  rcases endState_status_cases r e s with h | h <;> rw [h, statusErrCode_completionStatus]
  · decide
  · rcases he with h | h <;> rw [h] <;> decide

theorem raiseEarly_early {code : ErrCode} (s : State) (h : IsEarlyCode code) :
    statusErrCode (raiseEarly code s).status = 1 ∨ statusErrCode (raiseEarly code s).status = 2 ∨
      statusErrCode (raiseEarly code s).status = 3 := by
  rw [raiseEarly_status, statusErrCode_completionStatus]
  exact (isEarlyCode_iff_bits code).mp h

/-! ## Two states with the same operands and source (10_state.md R42) -/

/-- Whether the source read gets stuck does not depend on memory (20_memory.md R61). -/
theorem readSource_none_congr {p : Platform} {m : Memory} (m' : Memory) {lo n : Nat} (h : readSource p m lo n = none) :
    readSource p m' lo n = none := by
  cases h' : readSource p m' lo n with
  | none => rfl
  | some bs => rw [readSource_backed (readSource_some h').2] at h; cases h

/-- Whether a command gets stuck depends on the platform, its ranges and its source bytes only. -/
theorem runCommand_stuck_congr {r : Ranges} {f : List Byte → Effect} {s s' : State} (hp : s.platform = s'.platform)
    (hb : bytesAt s r.src = bytesAt s' r.src) (h : runCommand r f s = .fault .engineStuck) :
    runCommand r f s' = .fault .engineStuck := by
  unfold runCommand at h ⊢
  by_cases h1 : rangeFails r = true
  · rw [if_pos h1] at h; cases h
  rw [if_neg h1] at h ⊢
  by_cases h2 : overlapFails r = true
  · rw [if_pos h2] at h; cases h
  rw [if_neg h2] at h ⊢
  rw [← hp]
  cases hs : readSource s.platform s.mem r.src.base r.src.n with
  | none => rw [readSource_none_congr s'.mem hs]
  | some inp =>
    obtain ⟨hinp, hback⟩ := readSource_some hs
    have hs' : readSource s.platform s'.mem r.src.base r.src.n = some inp := by
      rw [readSource_backed hback, hinp]; exact congrArg some hb.symm
    rw [hs] at h
    rw [hs']
    cases ho : emitAll s.platform r.dst.base r.dst.n s.mem 0 (f inp).full with
    | stuck => simp only [emitAll_stuck s'.mem ho, finish]
    | _ => simp only [ho, finish] at h; cases h

/-- How a command's sequence ends from two states: both stuck, with the same early error, or with the same effect. -/
def EndAlike (r : Ranges) (s s' : State) (o o' : Host.Outcome State Fault Refusal) : Prop :=
  (o = .fault .engineStuck ∧ o' = .fault .engineStuck) ∨
    (∃ code, o = .next (raiseEarly code s) ∧ o' = .next (raiseEarly code s')) ∨
    ∃ e, o = .next (endState r e s) ∧ o' = .next (endState r e s')

theorem runCommand_endAlike {r : Ranges} (f : List Byte → Effect) {s s' : State} (hp : s.platform = s'.platform)
    (hb : bytesAt s r.src = bytesAt s' r.src) : EndAlike r s s' (runCommand r f s) (runCommand r f s') := by
  rcases runCommand_cases r f s with ⟨h1, h⟩ | ⟨h1, h2, h⟩ | ⟨-, h⟩ | ⟨hr, h⟩
  · exact .inr (.inl ⟨_, h, by simp [runCommand, h1]⟩)
  · exact .inr (.inl ⟨_, h, by simp [runCommand, h1, h2]⟩)
  · exact .inl ⟨h, runCommand_stuck_congr hp hb h⟩
  · obtain ⟨hrange, hoverlap⟩ := (rangesPass_iff r).mp hr
    rcases runCommand_cases r f s' with ⟨h1, -⟩ | ⟨-, h2, -⟩ | ⟨-, h'⟩ | ⟨-, h'⟩
    · rw [hrange] at h1; cases h1
    · rw [hoverlap] at h2; cases h2
    · rw [runCommand_stuck_congr hp.symm hb.symm h'] at h; cases h
    · exact .inr (.inr ⟨_, h, hb ▸ h'⟩)

/-- What a command's result may depend on, in one build and platform (10_state.md R42). -/
structure SameInputs (s s' : State) : Prop where
  clsPresent : s.clsPresent = s'.clsPresent
  platform : s.platform = s'.platform
  srcAddr : s.srcAddr = s'.srcAddr
  srcLen : s.srcLen = s'.srcLen
  dstAddr : s.dstAddr = s'.dstAddr
  dstCap : s.dstCap = s'.dstCap
  source : sourceBytes s = sourceBytes s'

theorem SameInputs.commandRanges_eq {s s' : State} (h : SameInputs s s') (i : Instr) :
    commandRanges s i = commandRanges s' i := by
  cases i <;> simp only [commandRanges, bufferRanges, classifyRanges, sourceRegion, sampleRegion, destinationRegion,
    h.srcAddr, h.srcLen, h.dstAddr, h.dstCap]

/-- The sample is the start of the source (43_selector.md R171). -/
theorem bytesAt_sampleRegion (s : State) :
    bytesAt s (sampleRegion s) = (sourceBytes s).take (min s.srcLen.toNat sampleCap) :=
  (Memory.readList_take _ _ (Nat.min_le_left _ _)).symm

theorem SameInputs.bytes_eq {s s' : State} (h : SameInputs s s') (i : Instr) :
    bytesAt s (commandRanges s i).src = bytesAt s' (commandRanges s i).src := by
  conv => rhs; rw [h.commandRanges_eq i]
  cases i with
  | classify =>
    change bytesAt s (sampleRegion s) = bytesAt s' (sampleRegion s')
    rw [bytesAt_sampleRegion, bytesAt_sampleRegion, h.source, h.srcLen]
  | suggestText | suggestBinary | suggestMixed => rfl
  | _ => exact h.source

/-- Every command ends alike from two states with the same inputs. -/
theorem exec_endAlike {s s' : State} (h : SameInputs s s') (i : Instr) :
    EndAlike (commandRanges s i) s s' (exec i s) (exec i s') := by
  cases hw : i.wellFormed s.clsPresent with
  | false => exact .inr (.inl ⟨_, exec_illegal hw, exec_illegal (h.clsPresent ▸ hw)⟩)
  | true =>
    rw [exec_legal hw, exec_legal (h.clsPresent ▸ hw), ← h.commandRanges_eq i, ← h.clsPresent]
    exact runCommand_endAlike _ h.platform (h.bytes_eq i)

/-- A command's destination is the destination buffer, or empty (40_dispatch.md R103). -/
theorem commandRanges_dst (s : State) (i : Instr) :
    (commandRanges s i).dst = destinationRegion s ∨ (commandRanges s i).dst.n = 0 := by
  cases i with
  | classify | suggestText | suggestBinary | suggestMixed => exact .inr rfl
  | _ => exact .inl rfl

/-- At a command's end the OUT_LEN bytes from DST_ADDR are its output, whatever memory held before. -/
theorem endState_output {i : Instr} {e : Effect} {s : State} {k : Nat} (u : State)
    (hk : k < (endState (commandRanges s i) e s).outLen.toNat) :
    (outputOf (commandRanges s i) e)[k]? = some ((endState (commandRanges s i) e u).mem.read (s.dstAddr.toNat + k)) := by
  have hlen : k < (outputOf (commandRanges s i) e).length :=
    hk.trans_le (by rw [endState_outLen, BitVec.toNat_ofNat]; exact Nat.mod_le _ _)
  rcases commandRanges_dst s i with hd | hd
  · have hbase : (commandRanges s i).dst.base = s.dstAddr.toNat := by rw [hd]; rfl
    rw [endState_mem, hbase, Memory.read_writeList_inside _ _ _ _ hlen, List.getElem?_eq_getElem hlen]
  · simp [outputOf, hd] at hlen

/-! ## Register accesses of the host -/

/-- A host write to the word at `REG_BASE + off` of the window moves the register at that offset (10_state.md R22, R40). -/
theorem step_write_word {s : State} {off : Nat} {v : Word} {rest : List HostMove} (h : off < 0x40) (h4 : off % 4 = 0)
    (hi : s.inputs = .write { addr := s.platform.regBase + off, width := 4 } v :: rest) :
    step s = .next (writeMove (Reg.ofOffset off) v { s with inputs := rest }) := by
  simp only [step, hi]
  exact registerMove_word (s := { s with inputs := rest }) h h4 _

theorem step_read_word {s : State} {off : Nat} {rest : List HostMove} (h : off < 0x40) (h4 : off % 4 = 0)
    (hi : s.inputs = .read { addr := s.platform.regBase + off, width := 4 } :: rest) :
    step s = .next (readMove (Reg.ofOffset off) { s with inputs := rest }) := by
  simp only [step, hi]
  exact registerMove_word (s := { s with inputs := rest }) h h4 _

theorem ofOffset_offset (r : Reg) : Reg.ofOffset r.offset = r := by cases r <;> rfl

theorem offset_in_window (r : Reg) : r.offset < 0x40 ∧ r.offset % 4 = 0 := by cases r <;> decide

theorem ofOffset_reserved {off : Nat} (h : 0x28 ≤ off) : Reg.ofOffset off = .reserved := by
  unfold Reg.ofOffset
  repeat rw [if_neg (by omega)]

/-- The offsets whose register takes no write (10_state.md R39, R40). -/
def readOnlyOffsets : List Nat := [0x00, 0x08, 0x1C, 0x20, 0x24, 0x28, 0x2C, 0x30, 0x34, 0x38, 0x3C]

theorem readOnlyOffsets_in_window : ∀ off ∈ readOnlyOffsets, off < 0x40 ∧ off % 4 = 0 := by decide

theorem readOnlyOffsets_reg : ∀ off ∈ readOnlyOffsets,
    Reg.ofOffset off ∈ [Reg.caps, .status, .outLen, .result, .sample, .reserved] := by decide

theorem writeMove_readOnly {r : Reg} (v : Word) (s : State)
    (h : r ∈ [Reg.caps, .status, .outLen, .result, .sample, .reserved]) : writeMove r v s = s := by
  cases hb : s.busy with
  | true => exact writeMove_busy r v hb
  | false =>
    rw [writeMove_idle r v hb]
    cases r with
    | cmd | srcAddr | srcLen | dstAddr | dstCap => simp at h
    | _ => rfl

/-- The four registers a host may set while idle (10_state.md R32 to R35). -/
def IsOperand (r : Reg) : Prop := r = .srcAddr ∨ r = .srcLen ∨ r = .dstAddr ∨ r = .dstCap

theorem readReg_writeIdle_same {r : Reg} (v : Word) (s : State) (h : IsOperand r) : readReg (writeIdle r v s) r = v := by
  rcases h with rfl | rfl | rfl | rfl <;> rfl

theorem readReg_writeIdle_other {r q : Reg} (v : Word) (s : State) (h : IsOperand r) (hq : q ≠ r) :
    readReg (writeIdle r v s) q = readReg s q := by
  cases q with
  | srcAddr => rcases h with rfl | rfl | rfl | rfl; exacts [absurd rfl hq, rfl, rfl, rfl]
  | srcLen => rcases h with rfl | rfl | rfl | rfl; exacts [rfl, absurd rfl hq, rfl, rfl]
  | dstAddr => rcases h with rfl | rfl | rfl | rfl; exacts [rfl, rfl, absurd rfl hq, rfl]
  | dstCap => rcases h with rfl | rfl | rfl | rfl; exacts [rfl, rfl, rfl, absurd rfl hq]
  | _ => rcases h with rfl | rfl | rfl | rfl <;> rfl

/-- A write to an operand register touches no memory, latch, platform or field of the model's own. -/
theorem writeIdle_operand_frame {r : Reg} (v : Word) (s : State) (h : IsOperand r) :
    (writeIdle r v s).mem = s.mem ∧ (writeIdle r v s).cmdLatch = s.cmdLatch ∧ (writeIdle r v s).platform = s.platform ∧
      (writeIdle r v s).draws = s.draws ∧ (writeIdle r v s).claims = s.claims ∧
      (writeIdle r v s).inputs = s.inputs := by
  rcases h with rfl | rfl | rfl | rfl <;> exact ⟨rfl, rfl, rfl, rfl, rfl, rfl⟩

theorem capsWord_eq (clsPresent : Bool) : capsWord clsPresent = if clsPresent then 0x10000F01#32 else 0x10000F00#32 := by
  cases clsPresent <;> decide

theorem resultRead_idle {s : State} (held : Word) (h : s.busy = false) : resultRead s held = held := by
  simp [resultRead, h]

theorem resultRead_busy {s : State} (held : Word) (h : s.busy = true) : resultRead s held = Config.busyRead s.draws := by
  simp [resultRead, h]

/-- A register access that answers a next state made its move at the register at its offset. -/
theorem registerMove_next {a : RegAccess} {s t : State} {move : Reg → State} (h : registerMove a s move = .next t) :
    t = move (Reg.ofOffset (a.addr - s.platform.regBase)) := by
  unfold registerMove at h
  split at h
  · split at h
    · cases h; rfl
    · cases h
  · cases h

theorem step_read_next {s t : State} {a : RegAccess} {rest : List HostMove} (hi : s.inputs = .read a :: rest)
    (h : step s = .next t) : t = readMove (Reg.ofOffset (a.addr - s.platform.regBase)) { s with inputs := rest } := by
  simp only [step, hi] at h
  exact registerMove_next h

/-- While busy no register read shows what the result registers hold (10_state.md R46). -/
theorem readReg_busy {s : State} (n r p : Word) (q : Reg) (h : s.busy = true) :
    readReg { s with outLen := n, result := r, sample := p } q = readReg s q := by
  have hb : State.busy { s with outLen := n, result := r, sample := p } = true := h
  cases q with
  | outLen | result | sample => simp only [readReg, resultRead_busy _ h, resultRead_busy _ hb]
  | _ => rfl

/-- An access in the window that is not an aligned 32-bit one is refused (10_state.md R40). -/
theorem registerMove_unsupported {s : State} {off width : Nat} (h : off < 0x40) (hu : width ≠ 4 ∨ off % 4 ≠ 0)
    (move : Reg → State) :
    registerMove { addr := s.platform.regBase + off, width := width } s move = .refused .unsupportedAccess := by
  have hsup : RegAccess.supported s.platform.regBase { addr := s.platform.regBase + off, width := width } = false := by
    rw [RegAccess.supported, Nat.add_sub_cancel_left, Bool.and_eq_false_iff, decide_eq_false_iff_not,
      decide_eq_false_iff_not]
    exact hu
  simp [registerMove, RegAccess.inWindow, h, hsup]

/-! ## Ordinary memory and reset -/

theorem memoryMove_admitted {a : Word} {s : State} (next : State) (hc : claimed s.claims a.toNat = false)
    (ha : s.platform.admits a.toNat = true) : memoryMove a s next = .next next := by
  simp [memoryMove, hc, ha]

theorem memoryAfterReset_idle {s : State} (h : s.busy = false) : memoryAfterReset s = s.mem := by
  simp [memoryAfterReset, h]

/-- A reset keeps every byte outside the destination range (70_reset_and_hazards.md R231). -/
theorem memoryAfterReset_outside {s : State} {a : Nat} (h : (destinationRegion s).has a = false) :
    (memoryAfterReset s).read a = s.mem.read a := by
  unfold memoryAfterReset
  split
  · exact drawBytes_outside _ _ ((Region.has_false_iff _ _).mp h)
  · rfl

end Sys2Proof.Machine
end

section
/-! PROOFS. The statements about 10_state.md, from the rules above. -/

namespace Sys2Proof.Machine

/-- Settles O57: the values of 10_state.md R45 and the empty memory meet the invariant. -/
theorem invariantHoldsAtReset : Obligations.InvariantHoldsAtReset :=
  ⟨rfl, .inl rfl, .inl rfl, sampleLegal_zero⟩

/-- Settles O58: every kind of step keeps the invariant, the build and the platform. -/
theorem stepKeepsTheInvariant : Obligations.StepKeepsTheInvariant :=
  fun _ _ hs h => ⟨step_keeps_stateInv h hs, step_keeps_build h⟩

/-- Settles O10: an idle block's write sets the one field that the register reads. -/
theorem operandRegistersHoldWhatIsWritten : Obligations.OperandRegistersHoldWhatIsWritten := by
  intro s r v rest hb hr hi
  obtain ⟨h, h4⟩ := offset_in_window r
  refine ⟨writeIdle r v { s with inputs := rest }, ?_, readReg_writeIdle_same v _ hr,
    fun q hq => readReg_writeIdle_other v { s with inputs := rest } hr hq,
    writeIdle_operand_frame v { s with inputs := rest } hr⟩
  rw [step_write_word h h4 hi, ofOffset_offset, writeMove_idle (s := { s with inputs := rest }) r v hb]

/-- Settles O11: the write reaches a register that takes none. -/
theorem readOnlyRegistersIgnoreWrites : Obligations.ReadOnlyRegistersIgnoreWrites := by
  intro s off v rest hoff hi
  obtain ⟨h, h4⟩ := readOnlyOffsets_in_window off hoff
  rw [step_write_word h h4 hi, writeMove_readOnly v _ (readOnlyOffsets_reg off hoff)]

/-- Settles O12: a read replies with what the register at the offset reads. -/
theorem registerReadsFollowTheMap : Obligations.RegisterReadsFollowTheMap := by
  intro s off rest h h4 hi
  refine ⟨_, _, step_read_word h h4 hi, rfl, rfl, ?_, ?_, ?_, ?_, ?_, ?_, ?_, ?_, ?_, ?_, ?_⟩
  · rintro rfl; exact capsWord_eq s.clsPresent
  · rintro rfl; rfl
  · rintro rfl; rfl
  · rintro rfl; rfl
  · rintro rfl; rfl
  · rintro rfl; rfl
  · rintro rfl; rfl
  · rintro hb rfl; exact resultRead_idle s.outLen hb
  · rintro hb rfl; exact resultRead_idle s.result hb
  · rintro hb rfl; exact resultRead_idle s.sample hb
  · intro h28; rw [ofOffset_reserved h28]; rfl

/-- Settles O13: both replies are the read of one register, which shows no result register while busy. -/
theorem busyReadsDoNotShowResults : Obligations.BusyReadsDoNotShowResults := by
  intro s t t' a rest n r p hb hi h h'
  rw [step_read_next hi h, step_read_next (s := { s with outLen := n, result := r, sample := p }) hi h',
    readMove_reply, readMove_reply]
  exact congrArg (fun v => some (Reply.reg v)) (readReg_busy (s := { s with inputs := rest }) n r p _ hb).symm

/-- Settles O14: reads and writes go through the same check. -/
theorem unsupportedAccessesAreRefused : Obligations.UnsupportedAccessesAreRefused := by
  intro s off width v rest h hu
  constructor <;> intro hi <;> simp only [step, hi] <;>
    exact registerMove_unsupported (s := { s with inputs := rest }) h hu _

/-- Settles O16: the access is admitted, and the store is one write of the byte memory. -/
theorem hostAccessesOrdinaryMemory : Obligations.HostAccessesOrdinaryMemory := by
  intro s a v rest hc ha
  constructor
  · intro hi
    refine ⟨storeMove a v { s with inputs := rest }, ?_, rfl, fun b => Memory.read_write s.mem a.toNat b v⟩
    simp only [step, hi]
    exact memoryMove_admitted (s := { s with inputs := rest }) _ hc ha
  · intro hi
    simp only [step, hi]
    exact memoryMove_admitted (s := { s with inputs := rest }) _ hc ha

/-- Settles O17: the reset move, and what it does to memory. -/
theorem resetRestoresRegistersAndKeepsMemory : Obligations.ResetRestoresRegistersAndKeepsMemory := by
  intro s rest hi
  refine ⟨resetMove { s with inputs := rest }, by simp only [step, hi], rfl, rfl, rfl, rfl, rfl, rfl, rfl, rfl,
    resetMove_busy _, rfl, rfl, fun hb => ?_, fun a ha => ?_⟩
  · exact memoryAfterReset_idle (s := { s with inputs := rest }) hb
  · exact memoryAfterReset_outside (s := { s with inputs := rest }) ha

/-- Settles O34: a command that answers a next state leaves a completion in STATUS. -/
theorem statusFieldsAreAsSpecified : Obligations.StatusFieldsAreAsSpecified := by
  refine ⟨rfl, fun _ _ => rfl, fun s t i h => ?_⟩
  obtain ⟨code, trunc, e⟩ := exec_status h
  rw [e]
  refine ⟨by simp, by simp, by simp [bits_eq_zero_iff], ?_, completionStatus_reserved code trunc⟩
  rw [statusErrCode_completionStatus]
  exact bits_toNat_le code

/-- Settles O35: an early error and an overflow pass `trunc` false; every other end passes the decoder's. -/
theorem truncIsSetExactlyForTrailingBytes : Obligations.TruncIsSetExactlyForTrailingBytes := by
  refine ⟨rfl, fun _ _ => statusTrunc_acceptedStatus, fun s t i h => ?_⟩
  rw [← effectOf_trunc_srcLen]
  rcases exec_next_cases h with ⟨code, hc, rfl⟩ | rfl
  · rcases hc with rfl | rfl | rfl <;> simp [ErrCode.bits]
  · rcases endState_status_cases (commandRanges s i)
      (effectOf s.clsPresent i (bytesAt s (commandRanges s i).src)) s with e | e <;> rw [e]
    · simp [ErrCode.bits]
    · exact statusTrunc_completionStatus_iff _ _

/-- Settles O36: an early error zeroes all three registers, any other end sets what the command's function gave. -/
theorem resultFieldsFollowTheCommandTable : Obligations.ResultFieldsFollowTheCommandTable := by
  intro s t i h
  have early : statusErrCode t.status = 1 ∨ statusErrCode t.status = 2 ∨ statusErrCode t.status = 3 →
      t.outLen = 0#32 ∧ t.result = 0#32 ∧ t.sample = 0#32 := fun hc => by
    rcases exec_next_cases h with ⟨code, -, rfl⟩ | rfl
    · exact ⟨rfl, rfl, rfl⟩
    · exact absurd hc (endState_not_early s (effectOf_code _ _ _))
  have valid : statusErrCode t.status ≠ 1 → statusErrCode t.status ≠ 2 → statusErrCode t.status ≠ 3 →
      (resultClassValid t.result = true ↔ i = .classify ∨ (i = .autoEnc ∧ s.clsPresent = true)) ∧
      (resultAlgValid t.result = true ↔ i = .suggestText ∨ i = .suggestBinary ∨ i = .suggestMixed ∨ i = .autoEnc) :=
    fun h1 h2 h3 => by
      rcases exec_next_cases h with ⟨code, hc, rfl⟩ | rfl
      · exact absurd (raiseEarly_early s hc) (by simp only [h1, h2, h3, or_self, not_false_eq_true])
      · exact ⟨effectOf_classValid _ _ _, effectOf_algValid _ _ _⟩
  have sample : i ≠ .classify → ¬ (i = .autoEnc ∧ s.clsPresent = true) → t.sample = 0#32 := fun hc ha => by
    rcases exec_next_cases h with ⟨code, -, rfl⟩ | rfl
    · rfl
    · exact effectOf_sample_zero _ hc ha
  obtain ⟨hclass, halg2, halg3, h3, h7⟩ := resultLegal_fields (exec_resultLegal h)
  obtain ⟨hcount, hcap, h11, h27⟩ := sampleLegal_fields (exec_sampleLegal h)
  exact ⟨early, valid, hclass, halg2, halg3, h3, h7, hcount, hcap, h11, h27, sample⟩

/-- Settles O56: from two states with the same inputs a command's sequence takes the same way. -/
theorem resultsDependOnlyOnOperandsAndSource : Obligations.ResultsDependOnlyOnOperandsAndSource := by
  intro s s' i hcls hplat hsrc hlen hdst hcap hbytes
  rcases exec_endAlike ⟨hcls, hplat, hsrc, hlen, hdst, hcap, hbytes⟩ i with h | ⟨code, h, h'⟩ | ⟨e, h, h'⟩
  · exact .inl h
  · exact .inr ⟨_, _, h, h', rfl, rfl, rfl, rfl, rfl, rfl, rfl, rfl, fun k hk => absurd hk (Nat.not_lt_zero k)⟩
  · exact .inr ⟨_, _, h, h', rfl, rfl, rfl, rfl, rfl, rfl, rfl, rfl, fun k hk =>
      Option.some.inj ((endState_output s hk).symm.trans (endState_output s' hk))⟩

end Sys2Proof.Machine
end

section
/-! PROOFS. Unbacked bytes and written bytes of a command, as rules the statements of 20_memory.md use. -/

namespace Sys2Proof.Machine

/-! ## Unbacked bytes (20_memory.md R61) -/

/-- An unbacked byte among those that are due within the capacity stops the output. -/
theorem emitAll_unbacked {p : Platform} {dst cap a : Nat} {vs : List Byte} (m : Memory) (h1 : dst ≤ a)
    (h2 : a < dst + min cap vs.length) (ha : p.admits a = false) : emitAll p dst cap m 0 vs = .stuck := by
  have hole : p.admits (dst + 0 + (a - dst)) = false := by rwa [show dst + 0 + (a - dst) = a by omega]
  rcases emitAll_cases (p := p) (dst := dst) (m := m) (vs := vs) (Nat.zero_le cap) with
    h | ⟨-, hb, -⟩ | ⟨-, hb, -⟩
  · exact h
  · rw [hb _ (by omega)] at hole; cases hole
  · rw [hb _ (by omega)] at hole; cases hole

theorem runCommand_unread {r : Ranges} (f : List Byte → Effect) {s : State} (hr : RangesPass r)
    (hs : readSource s.platform s.mem r.src.base r.src.n = none) : runCommand r f s = .fault .engineStuck := by
  obtain ⟨h1, h2⟩ := (rangesPass_iff r).mp hr
  simp [runCommand, h1, h2, hs]

/-- A command whose checks pass and whose source is backed emits what it computed from it (40_dispatch.md R109). -/
theorem runCommand_read {r : Ranges} (f : List Byte → Effect) {s : State} (hr : RangesPass r)
    (hs : Backed s.platform r.src) :
    runCommand r f s = finish (f (bytesAt s r.src))
      (emitAll s.platform r.dst.base r.dst.n s.mem 0 (f (bytesAt s r.src)).full) s := by
  obtain ⟨h1, h2⟩ := (rangesPass_iff r).mp hr
  simp [runCommand, h1, h2, readSource_backed hs, bytesAt]

theorem runCommand_source_unbacked {r : Ranges} (f : List Byte → Effect) {s : State} {a : Nat} (hr : RangesPass r)
    (h : r.src.has a = true) (ha : s.platform.admits a = false) : runCommand r f s = .fault .engineStuck := by
  obtain ⟨hlo, hhi⟩ := (Region.has_iff _ _).mp h
  exact runCommand_unread f hr (readSource_none ⟨a, hlo, hhi, ha⟩)

theorem runCommand_output_unbacked {r : Ranges} {f : List Byte → Effect} {s : State} {a : Nat} (hr : RangesPass r)
    (hlo : r.dst.base ≤ a) (hhi : a < r.dst.base + (outputOf r (f (bytesAt s r.src))).length)
    (ha : s.platform.admits a = false) : runCommand r f s = .fault .engineStuck := by
  cases hs : readSource s.platform s.mem r.src.base r.src.n with
  | none => exact runCommand_unread f hr hs
  | some inp =>
    rw [outputOf, List.length_take] at hhi
    rw [runCommand_read f hr (readSource_some hs).2, emitAll_unbacked s.mem hlo hhi ha, finish]

/-! ## The output of a command with a destination buffer (20_memory.md R64) -/

/-- OUT_LEN counts the output without wrap: it fits in DST_CAP, which is a word. -/
theorem buffer_outLen (s : State) (e : Effect) :
    (endState (bufferRanges s) e s).outLen.toNat = (outputOf (bufferRanges s) e).length ∧
      (outputOf (bufferRanges s) e).length ≤ s.dstCap.toNat := by
  have hcap : (outputOf (bufferRanges s) e).length ≤ s.dstCap.toNat := List.length_take_le _ _
  refine ⟨?_, hcap⟩
  rw [endState_outLen, BitVec.toNat_ofNat]
  exact Nat.mod_eq_of_lt (hcap.trans_lt s.dstCap.isLt)

/-- A byte that a command wrote is that of its unbounded output at the same index (40_dispatch.md R107). -/
theorem outputOf_getElem? {r : Ranges} {e : Effect} {k : Nat} (hk : k < (outputOf r e).length) :
    e.full[k]? = (outputOf r e)[k]? := by
  rw [outputOf, List.length_take] at hk
  exact (List.getElem?_take_of_lt (by omega)).symm

end Sys2Proof.Machine
end

section
/-! PROOFS. The statements about 20_memory.md, from the rules above. -/

namespace Sys2Proof.Machine

/-- Settles O30: the source read, or the output, meets the unbacked byte. -/
theorem unbackedAccessLeavesEngineStuck : Obligations.UnbackedAccessLeavesEngineStuck := by
  intro s i hw hr h
  rw [exec_legal hw]
  rcases h with ⟨a, hsrc, ha⟩ | ⟨hi, a, hlo, hhi, ha⟩
  · exact runCommand_source_unbacked _ hr hsrc ha
  · rw [buffer_ranges hi] at hr ⊢
    refine runCommand_output_unbacked hr hlo ?_ ha
    rwa [outputOf, List.length_take, effectOf_full, Nat.min_comm]

/-- Settles O32: an early error writes nothing, and the command's end writes its output at DST_ADDR. -/
theorem bufferCommandFrame : Obligations.BufferCommandFrame := by
  intro s t i hi h
  rcases exec_next_cases h with ⟨code, -, rfl⟩ | rfl
  · exact ⟨rfl, Nat.zero_le _, fun _ _ => rfl, fun k hk => absurd hk (Nat.not_lt_zero k)⟩
  · have hout := fun k => endState_output (i := i) (e := effectOf s.clsPresent i (sourceBytes s)) (s := s) (k := k) s
    rw [buffer_ranges hi] at hout ⊢
    obtain ⟨hlen, hcap⟩ := buffer_outLen s (effectOf s.clsPresent i (sourceBytes s))
    refine ⟨rfl, hlen.trans_le hcap, fun a ha => ?_, fun k hk => ?_⟩
    · exact Memory.read_writeList_outside _ _ (hlen ▸ ha)
    · rw [← effectOf_full, outputOf_getElem? (hlen ▸ hk)]
      exact hout k hk

/-- Settles O33: these commands have no output, so their end, like an early error, writes no memory. -/
theorem selectorCommandFrame : Obligations.SelectorCommandFrame := by
  intro s t i hi h
  rcases exec_next_cases h with ⟨code, -, rfl⟩ | rfl
  · rfl
  · have hnil : (effectOf s.clsPresent i (bytesAt s (commandRanges s i).src)).full = [] := by
      rcases hi with rfl | rfl | rfl | rfl <;> rfl
    rw [endState_nil hnil]
    rfl

end Sys2Proof.Machine
end

section
/-! PROOFS. The decoder as the inverse of the encoder, and the tokens of the two encoders, as rules the statements of
30_encoding.md use. -/

namespace Sys2Proof

/-! ## Command words -/

theorem decode_ok_iff (w : Word) (i : Instr) : decode w = .ok i ↔ w = encode i := by
  constructor
  · exact fun h => (word_of_fields w).trans (decode_ok_fields h)
  · rintro rfl; exact decode_encode i

/-- The build's gate passes exactly the commands that the build has (40_dispatch.md R102). -/
theorem decodeFor_ok_iff (clsPresent : Bool) (w : Word) (i : Instr) :
    decodeFor clsPresent w = .ok i ↔ decode w = .ok i ∧ i.wellFormed clsPresent = true := by
  unfold decodeFor
  cases decode w with
  | error r => simp
  | ok k =>
    by_cases hk : k.wellFormed clsPresent = true
    · simp only [if_pos hk, Except.ok.injEq]
      exact ⟨fun h => ⟨h, h ▸ hk⟩, And.left⟩
    · simp only [if_neg hk, reduceCtorEq, Except.ok.injEq, false_iff]
      exact fun ⟨h, hi⟩ => hk (h ▸ hi)

theorem wellFormed_iff (clsPresent : Bool) (i : Instr) :
    i.wellFormed clsPresent = true ↔
      (i = .classify ∨ i = .suggestText ∨ i = .suggestBinary ∨ i = .suggestMixed → clsPresent = true) := by
  cases i <;> simp [Instr.wellFormed, Instr.needsSelector]

end Sys2Proof

namespace Sys2Proof.Machine

/-- The rows of the command map are the commands with their words (30_encoding.md R85). -/
theorem mem_commandMap_iff (w : Word) (i : Instr) : (w, i) ∈ commandMap ↔ w = encode i := by
  have word : ∀ p ∈ commandMap, p.1 = encode p.2 := by decide
  constructor
  · exact word (w, i)
  · rintro rfl; cases i <;> decide

/-! ## The tokens of the RLE encoder -/

/-- Every whole token has a nonzero count, and its value follows again only if the count is 255 (30_encoding.md R94). -/
def RleCanonical (bs : List Byte) : Prop :=
  ∀ (j : Nat) (c v : Byte), bs[2 * j]? = some c → bs[2 * j + 1]? = some v →
    1 ≤ c.toNat ∧ (bs[2 * j + 3]? = some v → c = 0xFF#8)

theorem rleCanonical_nil : RleCanonical [] := by
  intro j c v hc
  simp at hc

/-- One token in front: its own count, and the value of the token after it. -/
theorem rleCanonical_token {run : Nat} {v : Byte} {bs : List Byte} (h1 : 1 ≤ run) (h255 : run ≤ rleMaxRun)
    (hnext : bs[1]? = some v → run = rleMaxRun) (h : RleCanonical bs) : RleCanonical (rleToken run v ++ bs) := by
  intro j c x hc hx
  cases j with
  | zero =>
    obtain rfl : BitVec.ofNat 8 run = c := Option.some.inj hc
    obtain rfl : v = x := Option.some.inj hx
    exact ⟨h1.trans_eq (toNat_count h255).symm, fun h3 => by rw [hnext h3]; rfl⟩
  | succ j => exact h j c x hc hx

/-- The first token of a run's encoding has the run's value (41_rle.md R120). -/
theorem rleEncodeRun_value (v : Byte) (run : Nat) (rest : List Byte) : (rleEncodeRun v run rest)[1]? = some v := by
  induction rest generalizing run with
  | nil => rfl
  | cons x rest ih =>
    simp only [rleEncodeRun]
    split
    · exact ih (run + 1)
    · rfl

/-- A run ends at another value or at its 255th byte, so its token meets the rule on the next one (41_rle.md R120). -/
theorem rleEncodeRun_canonical (v : Byte) (run : Nat) (rest : List Byte) (h1 : 1 ≤ run) (h255 : run ≤ rleMaxRun) :
    RleCanonical (rleEncodeRun v run rest) := by
  induction rest generalizing v run with
  | nil => exact rleCanonical_token h1 h255 (fun h => by simp at h) rleCanonical_nil
  | cons x rest ih =>
    simp only [rleEncodeRun]
    split
    · next hx => exact ih v (run + 1) (by omega) hx.2
    · next hx =>
      refine rleCanonical_token h1 h255 (fun hv => ?_) (ih x 1 (Nat.le_refl 1) (by decide))
      rw [rleEncodeRun_value, Option.some.injEq] at hv
      exact Nat.le_antisymm h255 (Nat.not_lt.mp fun hlt => hx ⟨hv, hlt⟩)

theorem rleEncode_canonical (inp : List Byte) : RleCanonical (rleEncode inp) := by
  cases inp with
  | nil => exact rleCanonical_nil
  | cons v rest => exact rleEncodeRun_canonical v 1 rest (Nat.le_refl 1) (by decide)

/-! ## The tokens of the LZ77 encoder -/

/-- A literal, or a back-reference within the encoder's bounds (30_encoding.md R91, R93, 42_lz77.md R148). -/
def IsEncoderToken (hi lo len lit : Byte) : Prop :=
  (hi = 0x00#8 ∧ lo = 0x00#8 ∧ len = 0x00#8) ∨
    (1 ≤ tokenOffset hi lo ∧ tokenOffset hi lo ≤ windowSize ∧ minMatch ≤ len.toNat ∧ len.toNat ≤ lookahead ∧
      len.toNat ≤ tokenOffset hi lo ∧ lit = lzFill)

/-- Every whole token is one that the encoder may emit. -/
def LzShape (bs : List Byte) : Prop :=
  ∀ (j : Nat) (hi lo len lit : Byte), bs[4 * j]? = some hi → bs[4 * j + 1]? = some lo → bs[4 * j + 2]? = some len →
    bs[4 * j + 3]? = some lit → IsEncoderToken hi lo len lit

theorem lzShape_nil : LzShape [] := by
  intro j hi lo len lit hhi
  simp at hhi

theorem lzShape_token {hi lo len lit : Byte} {bs : List Byte} (ht : IsEncoderToken hi lo len lit) (h : LzShape bs) :
    LzShape ([hi, lo, len, lit] ++ bs) := by
  intro j hi' lo' len' lit' hhi hlo hlen hlit
  cases j with
  | zero =>
    obtain rfl : hi = hi' := Option.some.inj hhi
    obtain rfl : lo = lo' := Option.some.inj hlo
    obtain rfl : len = len' := Option.some.inj hlen
    obtain rfl : lit = lit' := Option.some.inj hlit
    exact ht
  | succ j => exact h j hi' lo' len' lit' hhi hlo hlen hlit

theorem lzShape_literal {v : Byte} {bs : List Byte} (h : LzShape bs) : LzShape (literalToken v ++ bs) :=
  lzShape_token (.inl ⟨rfl, rfl, rfl⟩) h

/-- Offset and length fit their bytes, so a token within the bounds reads back as emitted (42_lz77.md R145). -/
theorem lzShape_backref {off len : Nat} {bs : List Byte} (hpos : 1 ≤ off) (hwin : off ≤ windowSize) (hmin : minMatch ≤ len)
    (hlook : len ≤ lookahead) (hlen : len ≤ off) (h : LzShape bs) : LzShape (backrefToken off len ++ bs) := by
  refine lzShape_token (.inr ?_) h
  have hoff : tokenOffset (BitVec.ofNat 8 (off / 256)) (BitVec.ofNat 8 off) = off :=
    tokenOffset_backref (hwin.trans_lt (by decide))
  have hcount : (BitVec.ofNat 8 len : Byte).toNat = len := toNat_count (hlook.trans (by decide))
  rw [hoff, hcount]
  exact ⟨hpos, hwin, hmin, hlook, hlen, rfl⟩

/-- The encoder emits a back-reference only for an accepted match, whose bounds are those of the token (42_lz77.md R148). -/
theorem lzEncodeFrom_shape (inp : List Byte) (fuel pos : Nat) : LzShape (lzEncodeFrom inp fuel pos) := by
  induction fuel generalizing pos with
  | zero => exact lzShape_nil
  | succ fuel ih =>
    simp only [lzEncodeFrom]
    split
    · exact lzShape_nil
    · next v hv =>
      split
      · next hmin =>
        have hpos : pos < inp.length := (List.getElem?_eq_some_iff.mp hv).1
        obtain ⟨hoff, hwin, -, hlook, hlen, -⟩ :=
          bestMatch_accepted hpos.le ((by decide : 0 < minMatch).trans_le hmin)
        exact lzShape_backref hoff hwin hmin hlook hlen (ih _)
      · exact lzShape_literal (ih _)

theorem lzEncode_shape (inp : List Byte) : LzShape (lzEncode inp) := lzEncodeFrom_shape inp inp.length 0

end Sys2Proof.Machine
end

section
/-! PROOFS. The statements about 30_encoding.md, from the rules above. -/

namespace Sys2Proof.Machine

/-- Settles O2: a word is its four fields, and a word that decodes has the fields of the command's word. -/
theorem decodeInvertsEncode : Obligations.DecodeInvertsEncode := decode_ok_iff

/-- Settles O1: the map lists the commands' words, and the gate of the build does the rest. -/
theorem commandMapIsExact : Obligations.CommandMapIsExact := by
  intro clsPresent w i
  rw [decodeFor_ok_iff, decode_ok_iff, mem_commandMap_iff, wellFormed_iff]

/-- Settles O38, by induction on the bytes left to a run. -/
theorem rleTokensAreCanonical : Obligations.RleTokensAreCanonical := rleEncode_canonical

/-- Settles O45, by induction on the encoder's loop. -/
theorem lzTokensHaveTheEncoderShape : Obligations.LzTokensHaveTheEncoderShape := fun inp =>
  ⟨(length_lzEncode inp).1, (length_lzEncode inp).2, lzEncode_shape inp⟩

/-- Settles O3: the eight words, evaluated. -/
theorem sampleWordsDecode : Obligations.SampleWordsDecode := by
  unfold Obligations.SampleWordsDecode
  decide

end Sys2Proof.Machine
end

section
/-! PROOFS. The codec loops with `emit` inside, as emissions of the bytes that the model's functions give, as rules the
statements of 40_dispatch.md R107 use. -/

namespace Sys2Proof.Machine

/-! ## The input at a position -/

theorem drop_of_getElem? {inp : List Byte} {pos : Nat} {v : Byte} (h : inp[pos]? = some v) :
    inp.drop pos = v :: inp.drop (pos + 1) := by
  obtain ⟨hlt, rfl⟩ := List.getElem?_eq_some_iff.mp h
  exact List.drop_eq_getElem_cons hlt

/-! ## Emitting -/

theorem emitAll_cons (p : Platform) (dst cap : Nat) (m : Memory) (k : Nat) (v : Byte) (vs : List Byte) :
    emitAll p dst cap m k (v :: vs) =
      (emit p dst cap m k v).andThen fun m k => emitAll p dst cap m k vs := by
  simp only [emitAll]
  cases emit p dst cap m k v <;> rfl

theorem emitTimes_eq_emitAll (p : Platform) (dst cap : Nat) (v : Byte) (c : Nat) (m : Memory) (k : Nat) :
    emitTimes p dst cap v c m k = emitAll p dst cap m k (List.replicate c v) := by
  induction c generalizing m k with
  | zero => rfl
  | succ c ih => simp only [emitTimes, ih, List.replicate_succ, emitAll_cons]

/-! ## The RLE encoder's loop (41_rle.md R120) -/

/-- A run ends where the next byte cannot join it, and the encoder starts again there. -/
theorem rleEncodeRun_ends {v : Byte} {run : Nat} {rest : List Byte} (h : ¬ (rest[0]? = some v ∧ run < rleMaxRun)) :
    rleEncodeRun v run rest = rleToken run v ++ rleEncode rest := by
  cases rest with
  | nil => simp [rleEncodeRun]
  | cons x rest =>
    rw [rleEncodeRun, if_neg fun hx => h ⟨congrArg some hx.1, hx.2⟩, rleEncode]

theorem le_countRun (inp : List Byte) (pos : Nat) (v : Byte) (left run : Nat) : run ≤ countRun inp pos v left run := by
  induction left generalizing run with
  | zero => exact Nat.le_refl run
  | succ left ih =>
    rw [countRun]
    split
    · exact (Nat.le_succ run).trans (ih (run + 1))
    · exact Nat.le_refl run

/-- Inside a run the encoder counts to the run's end, emits its token and goes on behind it. -/
theorem rleEncodeRun_eq_countRun {inp : List Byte} {pos : Nat} {v : Byte} {left run : Nat} (h : rleMaxRun ≤ left + run) :
    rleEncodeRun v run (inp.drop (pos + run)) =
      rleToken (countRun inp pos v left run) v ++ rleEncode (inp.drop (pos + countRun inp pos v left run)) := by
  induction left generalizing run with
  | zero => exact rleEncodeRun_ends fun hrun => by omega
  | succ left ih =>
    rw [countRun]
    split
    · next hnext =>
      obtain ⟨-, hv, hmax⟩ := hnext
      rw [drop_of_getElem? hv, rleEncodeRun, if_pos ⟨rfl, hmax⟩]
      exact ih (by omega)
    · next hnext =>
      refine rleEncodeRun_ends fun ⟨hv, hmax⟩ => hnext ?_
      rw [List.getElem?_drop, Nat.add_zero] at hv
      exact ⟨(List.getElem?_eq_some_iff.mp hv).1, hv, hmax⟩

/-- At a token boundary the encoder emits the token of the run that the inner loop counts. -/
theorem rleEncode_drop {inp : List Byte} {pos : Nat} {v : Byte} (h : inp[pos]? = some v) :
    rleEncode (inp.drop pos) = rleToken (countRun inp pos v rleMaxRun 1) v ++
      rleEncode (inp.drop (pos + countRun inp pos v rleMaxRun 1)) := by
  rw [drop_of_getElem? h, rleEncode]
  exact rleEncodeRun_eq_countRun (Nat.le_succ rleMaxRun)

theorem rleEncodeLoop_eq_emitAll (p : Platform) (dst cap : Nat) {inp : List Byte} {fuel pos : Nat}
    (hfuel : inp.length ≤ pos + fuel) (m : Memory) (k : Nat) :
    rleEncodeLoop p dst cap inp fuel pos m k = emitAll p dst cap m k (rleEncode (inp.drop pos)) := by
  induction fuel generalizing pos m k with
  | zero => rw [List.drop_of_length_le (show inp.length ≤ pos from hfuel)]; rfl
  | succ fuel ih =>
    rw [rleEncodeLoop]
    split
    · next hend => rw [List.drop_of_length_le (List.getElem?_eq_none_iff.mp hend)]; rfl
    · next v hv =>
      have hrun := le_countRun inp pos v rleMaxRun 1
      have hrest := @ih (pos + countRun inp pos v rleMaxRun 1) (by omega)
      simp only [rleEncode_drop hv, rleToken, List.cons_append, List.nil_append, emitAll_cons, hrest]

/-! ## The RLE decoder's loop (41_rle.md R124) -/

theorem rleDecode_short {bs : List Byte} (h : bs.length < 2) : rleDecode bs = [] := by
  match bs, h with
  | [], _ => rfl
  | [_], _ => rfl

theorem rleDecodeLoop_eq_emitAll (p : Platform) (dst cap : Nat) {inp : List Byte} {fuel pos : Nat}
    (hfuel : inp.length ≤ pos + fuel) (m : Memory) (k : Nat) :
    rleDecodeLoop p dst cap inp fuel pos m k = emitAll p dst cap m k (rleDecode (inp.drop pos)) := by
  induction fuel generalizing pos m k with
  | zero => rw [List.drop_of_length_le (show inp.length ≤ pos from hfuel)]; rfl
  | succ fuel ih =>
    rw [rleDecodeLoop]
    split
    · next c v hc hv =>
      have hrest := @ih (pos + 2) (by omega)
      simp only [drop_of_getElem? hc, drop_of_getElem? hv, rleDecode_token, emitAll_append, emitTimes_eq_emitAll, hrest]
    · next hshort =>
      rw [rleDecode_short]
      · rfl
      · rw [List.length_drop]
        by_contra hlen
        exact hshort _ _ (List.getElem?_eq_getElem (by omega)) (List.getElem?_eq_getElem (by omega))

/-! ## The LZ77 encoder's loop (42_lz77.md R146) -/

theorem lzEncodeFrom_end {inp : List Byte} {pos : Nat} (fuel : Nat) (h : inp[pos]? = none) :
    lzEncodeFrom inp (fuel + 1) pos = [] := by
  simp only [lzEncodeFrom, h]

theorem lzEncodeFrom_backref {inp : List Byte} {pos : Nat} {v : Byte} (fuel : Nat) (h : inp[pos]? = some v)
    (hlen : minMatch ≤ (bestMatch inp pos).len) :
    lzEncodeFrom inp (fuel + 1) pos = backrefToken (bestMatch inp pos).off (bestMatch inp pos).len ++
      lzEncodeFrom inp fuel (pos + (bestMatch inp pos).len) := by
  simp only [lzEncodeFrom, h, if_pos hlen]

theorem lzEncodeFrom_literal {inp : List Byte} {pos : Nat} {v : Byte} (fuel : Nat) (h : inp[pos]? = some v)
    (hlen : ¬ minMatch ≤ (bestMatch inp pos).len) :
    lzEncodeFrom inp (fuel + 1) pos = literalToken v ++ lzEncodeFrom inp fuel (pos + 1) := by
  simp only [lzEncodeFrom, h, if_neg hlen]

theorem lzEncodeLoop_eq_emitAll (p : Platform) (dst cap : Nat) (inp : List Byte) (fuel pos : Nat) (m : Memory)
    (k : Nat) : lzEncodeLoop p dst cap inp fuel pos m k = emitAll p dst cap m k (lzEncodeFrom inp fuel pos) := by
  induction fuel generalizing pos m k with
  | zero => rfl
  | succ fuel ih =>
    cases hv : inp[pos]? with
    | none => simp only [lzEncodeLoop, hv, lzEncodeFrom_end fuel hv, emitAll_nil]
    | some v =>
      by_cases hlen : minMatch ≤ (bestMatch inp pos).len
      · have hloop : 2 < (bestMatch inp pos).len := hlen
        simp only [lzEncodeLoop, hv, if_pos hloop, lzEncodeFrom_backref fuel hv hlen, emitAll_append, ih]
      · have hloop : ¬ 2 < (bestMatch inp pos).len := hlen
        simp only [lzEncodeLoop, hv, if_neg hloop, lzEncodeFrom_literal fuel hv hlen, emitAll_append, ih]

/-! ## Emitting with the output kept (42_lz77.md R150) -/

/-- `emit` of each byte in turn, as `lz_decode` does it: with the output kept. -/
def emitOuts (p : Platform) (dst cap : Nat) : Memory → List Byte → List Byte → DecodeRun
  | m, out, [] => .ok m out
  | m, out, v :: vs => (emitOut p dst cap m out v).andThen fun m out => emitOuts p dst cap m out vs

@[simp] theorem DecodeRun.ok_andThen (m : Memory) (out : List Byte) (k : Memory → List Byte → DecodeRun) :
    (DecodeRun.ok m out).andThen k = k m out := rfl

theorem DecodeRun.andThen_assoc (o : DecodeRun) (f g : Memory → List Byte → DecodeRun) :
    (o.andThen f).andThen g = o.andThen fun m out => (f m out).andThen g := by
  cases o <;> rfl

/-- What follows an `emit` is only reached with the byte appended. -/
theorem emitOut_andThen_congr {p : Platform} {dst cap : Nat} {m : Memory} {out : List Byte} {v : Byte}
    {f g : Memory → List Byte → DecodeRun} (h : ∀ m', f m' (out ++ [v]) = g m' (out ++ [v])) :
    (emitOut p dst cap m out v).andThen f = (emitOut p dst cap m out v).andThen g := by
  rw [emitOut]
  cases emit p dst cap m out.length v with
  | done m' k => exact h m'
  | overflow m' k => rfl
  | stuck => rfl

theorem emitOuts_singleton (p : Platform) (dst cap : Nat) (m : Memory) (out : List Byte) (v : Byte) :
    emitOuts p dst cap m out [v] = emitOut p dst cap m out v := by
  simp only [emitOuts]
  cases emitOut p dst cap m out v <;> rfl

/-- After some bytes the rest is emitted, from the output with these bytes appended. -/
theorem emitOuts_andThen_append {p : Platform} {dst cap : Nat} {m : Memory} {out xs ys : List Byte}
    {f g : Memory → List Byte → DecodeRun}
    (h : ∀ m', f m' (out ++ xs) = (emitOuts p dst cap m' (out ++ xs) ys).andThen g) :
    (emitOuts p dst cap m out xs).andThen f = (emitOuts p dst cap m out (xs ++ ys)).andThen g := by
  induction xs generalizing m out with
  | nil => simpa [emitOuts] using h m
  | cons x xs ih =>
    simp only [List.cons_append, emitOuts, DecodeRun.andThen_assoc]
    refine emitOut_andThen_congr fun m' => ih fun m' => ?_
    simpa using h m'

/-- How an emission of the bytes `full` of the whole output ends `lz_decode`, unless it goes on. -/
def decodeRunOf (full : List Byte) : Emission → DecodeRun
  | .done m _ => .ok m full
  | .overflow m k => .overflow m (full.take k)
  | .stuck => .stuck

theorem emitOuts_eq_emitAll (p : Platform) (dst cap : Nat) (m : Memory) (out vs : List Byte) :
    emitOuts p dst cap m out vs = decodeRunOf (out ++ vs) (emitAll p dst cap m out.length vs) := by
  induction vs generalizing m out with
  | nil => simp [emitOuts, decodeRunOf]
  | cons v vs ih =>
    rw [emitOuts, emitOut, emitAll]
    rcases emit_cases p dst cap m out.length v with h | h | h <;> rw [h]
    · simpa using ih (m.write (dst + out.length) v) (out ++ [v])
    · simp [DecodeRun.andThen, decodeRunOf]
    · rfl

/-! ## The LZ77 decoder's loop (42_lz77.md R150) -/

/-- The copy loop emits what the copy appends (42_lz77.md R154). -/
theorem copyLoop_eq_emitOuts {p : Platform} {dst cap start left j : Nat} {m : Memory} {out app : List Byte}
    (h : copyBytes start left j out = out ++ app) :
    copyLoop p dst cap start left j m out = emitOuts p dst cap m out app := by
  induction left generalizing j m out app with
  | zero =>
    obtain rfl : app = [] := by simpa [copyBytes] using h
    rfl
  | succ left ih =>
    cases hb : out[start + j]? with
    | none =>
      simp only [copyBytes, hb] at h
      simp only [copyLoop, hb]
      exact ih h
    | some b =>
      simp only [copyBytes, hb] at h
      simp only [copyLoop, hb]
      obtain ⟨app', happ⟩ := copyBytes_extends start left (j + 1) (out ++ [b])
      obtain rfl : b :: app' = app := by simpa using happ.symm.trans h
      exact emitOut_andThen_congr fun m' => ih happ

theorem lzDecodeFrom_short {bs : List Byte} (out : List Byte) (h : bs.length < 4) :
    lzDecodeFrom out bs = { out := out, corrupt := false } := by
  match bs, h with
  | [], _ => rfl
  | [_], _ => rfl
  | [_, _], _ => rfl
  | [_, _, _], _ => rfl

/-- The end of `lz_decode` once its output is out: CORRUPT_STREAM or not. -/
def decodeEnd (corrupt : Bool) (m : Memory) (out : List Byte) : DecodeRun :=
  if corrupt then .corrupt m out else .ok m out

/-- With less than a token left the decoder is at its end. -/
theorem decodeEnd_short {p : Platform} {dst cap : Nat} {bs out app : List Byte} {corrupt : Bool} (hbs : bs.length < 4)
    (h : lzDecodeFrom out bs = { out := out ++ app, corrupt := corrupt }) (m : Memory) :
    (emitOuts p dst cap m out app).andThen (decodeEnd corrupt) = .ok m out := by
  rw [lzDecodeFrom_short out hbs] at h
  obtain ⟨rfl, rfl⟩ : app = [] ∧ corrupt = false := by simpa [eq_comm] using h
  rfl

/-- Of what the decoder appends, first comes what a token appends (42_lz77.md R150). -/
theorem lzDecodeFrom_token {out app app' rest : List Byte} {corrupt : Bool}
    (h : lzDecodeFrom (out ++ app) rest = { out := out ++ app', corrupt := corrupt }) :
    ∃ vs, app' = app ++ vs ∧ lzDecodeFrom (out ++ app) rest = { out := out ++ app ++ vs, corrupt := corrupt } := by
  obtain ⟨vs, hvs⟩ := lzDecodeFrom_extends (out ++ app) rest
  obtain rfl : app ++ vs = app' := by simpa [h] using hvs.symm
  exact ⟨vs, rfl, by rw [h, List.append_assoc]⟩

/-- The decoder's loop emits what the decoder appends, then ends as the decoder does. -/
theorem lzDecodeLoop_eq_emitOuts (p : Platform) (dst cap : Nat) {inp : List Byte} {fuel pos : Nat} {out app : List Byte}
    {corrupt : Bool} (hfuel : inp.length ≤ pos + fuel)
    (h : lzDecodeFrom out (inp.drop pos) = { out := out ++ app, corrupt := corrupt }) (m : Memory) :
    lzDecodeLoop p dst cap inp fuel pos m out = (emitOuts p dst cap m out app).andThen (decodeEnd corrupt) := by
  induction fuel generalizing pos m out app with
  | zero => exact (decodeEnd_short (by rw [List.length_drop]; omega) h m).symm
  | succ fuel ih =>
    have goOn (a : List Byte)
        (ha : lzDecodeFrom (out ++ a) (inp.drop (pos + 4)) = { out := out ++ app, corrupt := corrupt }) :
        (emitOuts p dst cap m out a).andThen (fun m out => lzDecodeLoop p dst cap inp fuel (pos + 4) m out) =
          (emitOuts p dst cap m out app).andThen (decodeEnd corrupt) := by
      obtain ⟨vs, rfl, hvs⟩ := lzDecodeFrom_token ha
      exact emitOuts_andThen_append (ih (by omega) hvs)
    rw [lzDecodeLoop]
    split
    · next hi lo len lit hhi hlo hlen hlit =>
      simp only [drop_of_getElem? hhi, drop_of_getElem? hlo, drop_of_getElem? hlen, drop_of_getElem? hlit,
        lzDecodeFrom] at h
      split at h
      · next hliteral =>
        rw [if_pos hliteral, ← emitOuts_singleton]
        exact goOn [lit] h
      · next hback =>
        rw [if_neg hback]
        split at h
        · next hfar =>
          obtain ⟨rfl, rfl⟩ : app = [] ∧ corrupt = true := by simpa [eq_comm] using h
          rw [if_pos hfar]
          rfl
        · next hnear =>
          obtain ⟨a, ha⟩ := copyBytes_extends (out.length - tokenOffset hi lo) len.toNat 0 out
          rw [if_neg hnear, copyLoop_eq_emitOuts ha]
          exact goOn a (ha ▸ h)
    · next hshort =>
      refine (decodeEnd_short ?_ h m).symm
      rw [List.length_drop]
      by_contra hlen
      exact hshort _ _ _ _ (List.getElem?_eq_getElem (by omega)) (List.getElem?_eq_getElem (by omega))
        (List.getElem?_eq_getElem (by omega)) (List.getElem?_eq_getElem (by omega))

end Sys2Proof.Machine
end

section
/-! PROOFS. The engine's step and the write to CMD, as rules the statements of 40_dispatch.md use. -/

namespace Sys2Proof.Machine

/-! ## The engine's turn -/

theorem engineTurn_busy {s : State} (h : s.busy = true) : engineTurn s = engineStep s := by
  simp [engineTurn, h]

theorem engineTurn_idle {s : State} (h : s.busy = false) : engineTurn s = .next s := by
  simp [engineTurn, h]

theorem step_engine {s : State} {rest : List HostMove} (hi : s.inputs = .engine :: rest) :
    step s = engineTurn { s with inputs := rest } := by
  simp only [step, hi]

theorem step_wait_busy {s : State} {rest : List HostMove} (hi : s.inputs = .wait :: rest) (hb : s.busy = true) :
    step s = engineStep s := by
  simp only [step, hi, hb, if_true]

theorem step_wait_idle {s : State} {rest : List HostMove} (hi : s.inputs = .wait :: rest) (hb : s.busy = false) :
    step s = .next (readMove .status { s with inputs := rest }) := by
  simp only [step, hi, hb, Bool.false_eq_true, if_false]

/-- The engine's step ends with BUSY = 0 (40_dispatch.md R101, R108). -/
theorem engineStep_ends_idle {s t : State} (h : engineStep s = .next t) : t.busy = false := by
  rcases engineStep_next_cases h with ⟨i, hi⟩ | rfl
  · obtain ⟨code, trunc, hstatus⟩ := exec_status hi
    rw [State.busy, hstatus, statusBusy_completionStatus]
  · exact raiseEarly_busy _ _

/-! ## Illegal words (60_exceptions.md R202) -/

/-- Of the command words, those of commands the build lacks are illegal. -/
theorem illegalWord_encode_iff (clsPresent : Bool) (i : Instr) :
    IllegalWord clsPresent (encode i) ↔ i.wellFormed clsPresent = false := by
  unfold IllegalWord
  cases clsPresent <;> cases i <;> decide

theorem afterEarlyError_illegalCmd (s : State) : raiseEarly .illegalCmd s = afterEarlyError s 0x00000106#32 := by
  rw [← completionStatus_illegalCmd false]
  rfl

/-- An illegal word in CMD_LATCH completes with ILLEGAL_CMD and does nothing else. -/
theorem engineStep_illegalWord {s : State} (h : IllegalWord s.clsPresent s.cmdLatch) :
    engineStep s = .next (afterEarlyError s 0x00000106#32) := by
  rw [← afterEarlyError_illegalCmd]
  cases hd : decode s.cmdLatch with
  | error r => exact engineStep_error hd
  | ok i =>
    rw [(decode_ok_iff _ _).mp hd, illegalWord_encode_iff] at h
    rw [engineStep_ok hd, exec_illegal h, illegalCommand]

/-! ## The write to CMD -/

/-- A write to CMD while idle is accepted (40_dispatch.md R100). -/
theorem step_write_cmd_idle {s : State} {w : Word} {rest : List HostMove} (hb : s.busy = false)
    (hi : s.inputs = .write { addr := s.platform.regBase + 0x04, width := 4 } w :: rest) :
    step s = .next (acceptCommand w { s with inputs := rest }) := by
  rw [step_write_word (by decide) (by decide) hi]
  exact congrArg _ (writeMove_idle (s := { s with inputs := rest }) .cmd w hb)

/-- A register write that the host may make is ignored while busy (40_dispatch.md R113). -/
theorem step_write_busy {s : State} {a : RegAccess} {v : Word} {rest : List HostMove} (hb : s.busy = true)
    (ha : a.wellFormed s.platform.regBase = true) (hi : s.inputs = .write a v :: rest) :
    step s = .next { s with inputs := rest } := by
  obtain ⟨hwin, hsup⟩ := Bool.and_eq_true_iff.mp ha
  have hmove := fun r => writeMove_busy (s := { s with inputs := rest }) r v hb
  simp only [step, hi, registerMove, hwin, hsup, if_true, hmove]

theorem cmd_access_wellFormed (base : Nat) : RegAccess.wellFormed base { addr := base + 0x04, width := 4 } = true := by
  simp [RegAccess.wellFormed, RegAccess.inWindow, RegAccess.supported]

theorem tableWord_toNat (w : Word) : tableWord 32 w.toNat = w := by
  rw [tableWord, Nat.mod_eq_of_lt w.isLt, BitVec.ofNat_toNat, BitVec.setWidth_eq]

/-- After `withFetchWord` the next step is the engine's, on the accepted word (log entry 7). -/
theorem step_withFetchWord (s : State) (w : Word) :
    step (s.withFetchWord 32 w.toNat) = engineStep (acceptCommand w s) := by
  rw [State.withFetchWord, tableWord_toNat]
  cases hi : s.inputs with
  | nil =>
    rw [show ({ s with inputs := engineFirst [] } : State) = s by rw [engineFirst, ← hi]]
    exact step_busy hi (acceptCommand_busy w s)
  | cons x xs =>
    have hturn : step (acceptCommand w { s with inputs := engineFirst (x :: xs) }) =
        engineTurn (acceptCommand w { s with inputs := x :: xs }) := step_engine rfl
    rw [hturn, engineTurn_busy (acceptCommand_busy w _), ← hi]

/-! ## AUTO.ENC and the chosen codec (40_dispatch.md R111) -/

/-- The end of a command depends on its RESULT and SAMPLE only in these registers. -/
theorem finish_result_sample {e : Effect} {o : Emission} {s t : State} (r p : Word) (h : finish e o s = .next t) :
    finish { e with result := r, sample := p } o s = .next { t with result := r, sample := p } := by
  cases o with
  | done m k => cases h; rfl
  | overflow m k => cases h; rfl
  | stuck => cases h

/-- Two functions that differ in RESULT and SAMPLE on the source end the command alike, but for these registers. -/
theorem runCommand_result_sample {r : Ranges} {f g : List Byte → Effect} {s t : State}
    (hg : ∃ x p, g (bytesAt s r.src) = { f (bytesAt s r.src) with result := x, sample := p })
    (h : runCommand r f s = .next t) : ∃ x p, runCommand r g s = .next { t with result := x, sample := p } := by
  unfold runCommand at h ⊢
  split at h
  · next hrange => rw [if_pos hrange]; cases h; exact ⟨0#32, 0#32, rfl⟩
  · next hrange =>
    rw [if_neg hrange]
    split at h
    · next hover => rw [if_pos hover]; cases h; exact ⟨0#32, 0#32, rfl⟩
    · next hover =>
      rw [if_neg hover]
      cases hread : readSource s.platform s.mem r.src.base r.src.n with
      | none => rw [hread] at h; cases h
      | some inp =>
        obtain rfl : inp = bytesAt s r.src := (readSource_some hread).1
        obtain ⟨x, p, hxp⟩ := hg
        rw [hread] at h
        simp only [hxp]
        exact ⟨x, p, finish_result_sample x p h⟩

/-- The codec that AUTO.ENC chooses (43_selector.md R179, R180). -/
def chosenCodec (clsPresent : Bool) (inp : List Byte) : Instr :=
  if clsPresent = true ∧ classify inp = .text then .rleEnc else .lzEnc

theorem chosenCodec_isBufferCommand (clsPresent : Bool) (inp : List Byte) :
    IsBufferCommand (chosenCodec clsPresent inp) := by
  unfold chosenCodec
  split
  · exact .inl rfl
  · exact .inr (.inl rfl)

/-- AUTO.ENC's function is the chosen codec's, but for RESULT and SAMPLE (43_selector.md R181). -/
theorem autoEffect_eq_chosenCodec (clsPresent : Bool) (inp : List Byte) :
    ∃ r p, autoEffect clsPresent inp =
      { effectOf clsPresent (chosenCodec clsPresent inp) inp with result := r, sample := p } := by
  cases clsPresent with
  | false => exact ⟨algResult .lz, 0#32, rfl⟩
  | true =>
    refine ⟨autoResult (suggest (classify inp)) (classify inp), sampleWord (textCount inp) (sampledCount inp), ?_⟩
    cases hc : classify inp <;>
      simp [autoEffect, chosenCodec, hc, suggest, encodeWith, effectOf, rleEncEffect, lzEncEffect]

end Sys2Proof.Machine
end

section
/-! PROOFS. The statements about 40_dispatch.md, from the rules above. -/

namespace Sys2Proof.Machine

/-- Settles O31: a command that is not stuck leaves a completion in STATUS. -/
theorem everyCommandEndsIdleOrIsStuck : Obligations.EveryCommandEndsIdleOrIsStuck := by
  intro s i
  rcases exec_total i s with ⟨t, h⟩ | h
  · obtain ⟨code, trunc, hstatus⟩ := exec_status h
    exact .inr ⟨t, h, hstatus ▸ statusBusy_completionStatus code trunc, hstatus ▸ statusDone_completionStatus code trunc⟩
  · exact .inl h

/-- Settles O50: each loop emits, token by token, what the function gives for the input left. -/
theorem rleLoopsAgreeWithPseudocode : Obligations.RleLoopsAgreeWithPseudocode := fun p dst cap _ m =>
  ⟨rleEncodeLoop_eq_emitAll p dst cap (Nat.le_add_left _ 0) m 0,
    rleDecodeLoop_eq_emitAll p dst cap (Nat.le_add_left _ 0) m 0⟩

/-- Settles O51, by induction on the tokens. -/
theorem lzEncodeLoopAgreesWithPseudocode : Obligations.LzEncodeLoopAgreesWithPseudocode := fun p dst cap inp m =>
  lzEncodeLoop_eq_emitAll p dst cap inp inp.length 0 m 0

/-- Settles O52: the loop emits the decoder's output, and then ends as the decoder does. -/
theorem lzDecodeLoopAgreesWithPseudocode : Obligations.LzDecodeLoopAgreesWithPseudocode := by
  intro p dst cap inp m
  rw [lzDecodeLoop_eq_emitOuts p dst cap (out := []) (app := (lzDecode inp).out) (corrupt := (lzDecode inp).corrupt)
    (Nat.le_add_left _ 0) rfl m, emitOuts_eq_emitAll, List.nil_append, List.length_nil]
  cases emitAll p dst cap m 0 (lzDecode inp).out <;> rfl

/-- Settles O55: AUTO.ENC runs the sequence on the same ranges, with a function that differs in RESULT and SAMPLE only. -/
theorem autoEncAgreesWithTheChosenCodec : Obligations.AutoEncAgreesWithTheChosenCodec := by
  rintro s t _ rfl h
  have hi := chosenCodec_isBufferCommand s.clsPresent (sourceBytes s)
  change exec (chosenCodec s.clsPresent (sourceBytes s)) s = .next t at h
  rw [exec_legal (buffer_wellFormed hi _), buffer_ranges hi] at h
  exact runCommand_result_sample (autoEffect_eq_chosenCodec s.clsPresent (sourceBytes s)) h

/-- Settles O60: the accepted command is busy until the engine's step ends it. -/
theorem secondCommandWriteHasTwoOutcomes : Obligations.SecondCommandWriteHasTwoOutcomes := by
  rintro s _ u w w' _ rest - rfl rfl
  refine ⟨step_write_busy (acceptCommand_busy w s) (cmd_access_wellFormed s.platform.regBase) rfl, fun h => ?_⟩
  have hidle : u.busy = false := engineStep_ends_idle h
  have hplat : u.platform = s.platform := (engineStep_keeps_build h).2
  rw [← hplat]
  exact ⟨_, step_write_cmd_idle (s := { u with inputs := _ }) hidle rfl, rfl, rfl, rfl⟩

/-- Settles O5: in each of the three cases the step is the engine's. -/
theorem busyStepExecutesLatchedCommand : Obligations.BusyStepExecutesLatchedCommand := by
  intro s i hb hd
  refine ⟨fun hi => (step_busy hi hb).trans (engineStep_ok hd), fun rest hi => ?_,
    fun rest hi => (step_wait_busy hi hb).trans (engineStep_ok hd)⟩
  rw [step_engine hi, engineTurn_busy (s := { s with inputs := rest }) hb]
  exact engineStep_ok hd

/-- Settles O6: the placed word is latched, and the engine's step executes what is latched. -/
theorem placedWordIsExecutedNext : Obligations.PlacedWordIsExecutedNext := fun s w _ hd =>
  (step_withFetchWord s w).trans (engineStep_ok hd)

/-- Settles O7: the turn of an idle engine passes, and `wait` reads STATUS. -/
theorem idleEngineHasNoStep : Obligations.IdleEngineHasNoStep := by
  intro s hb
  refine ⟨fun hi => step_idle hi hb, fun rest hi => ?_, fun rest hi => ⟨_, step_wait_idle hi hb, rfl, rfl, ?_⟩⟩
  · rw [step_engine hi, engineTurn_idle (s := { s with inputs := rest }) hb]
  · rw [readMove_claims]
    exact if_pos ⟨rfl, hb⟩

/-- Settles O8: the write latches the word, and the engine's step finds an illegal one. -/
theorem commandWriteIsAccepted : Obligations.CommandWriteIsAccepted := fun s w rest hb hi =>
  ⟨acceptCommand w { s with inputs := rest }, step_write_cmd_idle hb hi, rfl,
    engineStep_illegalWord (s := acceptCommand w { s with inputs := rest })⟩

/-- Settles O9: a busy block takes no register write. -/
theorem writesWhileBusyAreIgnored : Obligations.WritesWhileBusyAreIgnored := fun _ _ _ _ hb ha hi =>
  step_write_busy hb ha hi

end Sys2Proof.Machine
end

section
/-! PROOFS. The end of a buffer command whose output fits, and the runs and tokens of the RLE codec, as rules the statements of
41_rle.md use. -/

namespace Sys2Proof.Machine

/-! ## Commands whose output fits -/

/-- The end of a command whose output fits in the destination buffer (40_dispatch.md R108). -/
theorem endState_bufferRanges_fits {e : Effect} {s : State} (h : e.full.length ≤ s.dstCap.toNat) :
    endState (bufferRanges s) e s = afterCommand s e.full (completionStatus e.code e.trunc) e.result e.sample :=
  endState_fits h

/-- An unobstructed command whose output fits completes with its whole output written (40_dispatch.md R109). -/
theorem buffer_completes_fits {i : Instr} {s : State} {e : Effect} (hi : IsBufferCommand i)
    (he : effectOf s.clsPresent i (sourceBytes s) = e) (h : Unobstructed s e.full) (hfit : e.full.length ≤ s.dstCap.toNat) :
    exec i s = .next (afterCommand s e.full (completionStatus e.code e.trunc) e.result e.sample) := by
  subst he
  rw [buffer_completes hi (effectOf_full _ _ _ ▸ h), endState_bufferRanges_fits hfit]

/-- STATUS of a decoder that ended without an error: 0xA when it dropped trailing bytes, else 0x2 (10_state.md R29). -/
theorem completionStatus_none_decide (p : Prop) [Decidable p] :
    completionStatus .none (decide p) = if p then 0x0000000A#32 else 0x00000002#32 := by
  split
  · next hp => rw [decide_eq_true hp, completionStatus_none_trunc]
  · next hp => rw [decide_eq_false hp, completionStatus_none]

/-! ## The end of RLE.ENC and of RLE.DEC -/

theorem exec_rleEnc_fits {s : State} (h : Unobstructed s (rleEncode (sourceBytes s)))
    (hfit : (rleEncode (sourceBytes s)).length ≤ s.dstCap.toNat) :
    exec .rleEnc s = .next (afterCommand s (rleEncode (sourceBytes s)) 0x00000002#32 0#32 0#32) := by
  rw [buffer_completes_fits (e := rleEncEffect (sourceBytes s)) (.inl rfl) rfl h hfit, ← completionStatus_none]
  rfl

theorem exec_rleDec_fits {s : State} (h : Unobstructed s (rleDecode (sourceBytes s)))
    (hfit : (rleDecode (sourceBytes s)).length ≤ s.dstCap.toNat) :
    exec .rleDec s = .next (afterCommand s (rleDecode (sourceBytes s))
      (if s.srcLen.toNat % 2 = 1 then 0x0000000A#32 else 0x00000002#32) 0#32 0#32) := by
  rw [buffer_completes_fits (e := rleDecEffect (sourceBytes s)) (.inr (.inr (.inr (.inl rfl)))) rfl h hfit,
    ← completionStatus_none_decide, ← sourceBytes_length]
  rfl

/-! ## A command on the output of another -/

/-- OUT_LEN counts an output that fits without wrap: the capacity is a word. -/
theorem afterCommand_outLen_toNat {s : State} {out : List Byte} (status result sample : Word)
    (hfit : out.length ≤ s.dstCap.toNat) : (afterCommand s out status result sample).outLen.toNat = out.length := by
  rw [afterCommand, BitVec.toNat_ofNat, Nat.mod_eq_of_lt (hfit.trans_lt s.dstCap.isLt)]

/-- A state whose source buffer is where a command wrote its output has that output as its source. -/
theorem sourceBytes_of_output {s u : State} {out : List Byte} (hmem : u.mem = s.mem.writeList s.dstAddr.toNat out)
    (haddr : u.srcAddr = s.dstAddr) (hlen : u.srcLen.toNat = out.length) : sourceBytes u = out := by
  simp only [sourceBytes, bytesAt, sourceRegion, hmem, haddr, hlen, Memory.readList_writeList]

/-- RLE.DEC on an encoding writes what was encoded, with no trailing byte (41_rle.md R128). -/
theorem exec_rleDec_rleEncode {s : State} {b : List Byte} (hsrc : sourceBytes s = rleEncode b) (h : Unobstructed s b)
    (hfit : b.length ≤ s.dstCap.toNat) : exec .rleDec s = .next (afterCommand s b 0x00000002#32 0#32 0#32) := by
  have hdec : rleDecode (sourceBytes s) = b := by rw [hsrc, rleDecode_rleEncode]
  have heven : ¬ s.srcLen.toNat % 2 = 1 := by
    rw [← sourceBytes_length, hsrc, (length_rleEncode b).1]; decide
  rw [exec_rleDec_fits (hdec ▸ h) (hdec ▸ hfit), hdec, if_neg heven]

/-! ## Runs of the encoder (41_rle.md R122) -/

/-- Within the greatest run a byte equal to the run's value is counted. -/
theorem rleEncodeRun_replicate (v : Byte) {run k : Nat} (rest : List Byte) (h : run + k ≤ rleMaxRun) :
    rleEncodeRun v run (List.replicate k v ++ rest) = rleEncodeRun v (run + k) rest := by
  induction k generalizing run with
  | zero => rfl
  | succ k ih =>
    rw [List.replicate_succ, List.cons_append, rleEncodeRun, if_pos ⟨rfl, by omega⟩, ih (by omega),
      Nat.add_right_comm, Nat.add_assoc]

/-- A run of at most 255 bytes that the next byte cannot join is one token. -/
theorem rleEncode_run {v : Byte} {len : Nat} {rest : List Byte} (h1 : 1 ≤ len) (h255 : len ≤ rleMaxRun)
    (hend : ¬ (rest[0]? = some v ∧ len < rleMaxRun)) :
    rleEncode (List.replicate len v ++ rest) = rleToken len v ++ rleEncode rest := by
  obtain ⟨k, rfl⟩ := Nat.exists_eq_add_of_le h1
  rw [Nat.add_comm, List.replicate_succ, List.cons_append, rleEncode, rleEncodeRun_replicate v rest h255, Nat.add_comm k,
    rleEncodeRun_ends hend]

/-- Of a long run each 255 bytes are one token, whatever follows them. -/
theorem rleEncode_fullTokens (v : Byte) (q r : Nat) (rest : List Byte) :
    rleEncode (List.replicate (255 * q + r) v ++ rest) =
      (List.replicate q [0xFF#8, v]).flatten ++ rleEncode (List.replicate r v ++ rest) := by
  induction q with
  | zero => simp
  | succ q ih =>
    have hfull := rleEncode_run (v := v) (len := rleMaxRun) (rest := List.replicate (255 * q + r) v ++ rest)
      (by decide) (Nat.le_refl _) (fun h => Nat.lt_irrefl _ h.2)
    rw [show 255 * (q + 1) + r = rleMaxRun + (255 * q + r) by simp only [rleMaxRun]; omega, List.replicate_add,
      List.append_assoc, hfull, ih, List.replicate_succ, List.flatten_cons, List.append_assoc]
    rfl

/-! ## The length of the encoding (41_rle.md R123) -/

/-- A run's first byte costs two bytes, and so does each later one unless it joins the run before it. -/
theorem length_rleEncodeRun_eq_iff (v : Byte) (rest : List Byte) :
    (rleEncodeRun v 1 rest).length = 2 + 2 * rest.length ↔ (v :: rest).IsChain (· ≠ ·) := by
  induction rest generalizing v with
  | nil => simp [rleEncodeRun, rleToken]
  | cons x rest ih =>
    rw [rleEncodeRun, List.isChain_cons_cons, ← ih x]
    split
    · next hjoin =>
      have hle := (length_rleEncodeRun v (1 + 1) rest).2
      have hne : (rleEncodeRun v (1 + 1) rest).length ≠ 2 + 2 * (x :: rest).length := by
        simp only [List.length_cons]; omega
      exact iff_of_false hne fun h => h.1 hjoin.1.symm
    · next hjoin =>
      have hne : v ≠ x := fun h => hjoin ⟨h.symm, by decide⟩
      simp only [hne, ne_eq, not_false_eq_true, true_and, List.length_append, rleToken, List.length_cons, List.length_nil]
      omega

theorem length_rleEncode_eq_iff (inp : List Byte) :
    (rleEncode inp).length = 2 * inp.length ↔ inp.IsChain (· ≠ ·) := by
  cases inp with
  | nil => simp
  | cons v rest => rw [← length_rleEncodeRun_eq_iff, rleEncode, List.length_cons, Nat.mul_succ, Nat.add_comm]

/-! ## The length of the decoding (41_rle.md R129) -/

/-- A token in front is one whole token more. -/
theorem half_length_token (c v : Byte) (rest : List Byte) : (c :: v :: rest).length / 2 = rest.length / 2 + 1 :=
  Nat.add_div_right rest.length Nat.two_pos

theorem length_rleDecode_eq_sum : ∀ inp : List Byte,
    (rleDecode inp).length = ((List.range (inp.length / 2)).map fun j => (inp.getD (2 * j) 0#8).toNat).sum
  | [] => rfl
  | [_] => by simp [rleDecode]
  | c :: v :: rest => by
    rw [half_length_token, List.range_succ_eq_map, List.map_cons, List.map_map, List.sum_cons, rleDecode_token,
      List.length_append, List.length_replicate, length_rleDecode_eq_sum rest]
    rfl

theorem length_rleDecode_le : ∀ inp : List Byte, (rleDecode inp).length ≤ 255 * (inp.length / 2)
  | [] => Nat.zero_le _
  | [_] => Nat.zero_le _
  | c :: v :: rest => by
    have hcount : c.toNat ≤ 255 := Nat.le_of_lt_succ c.isLt
    rw [half_length_token, rleDecode_token, List.length_append, List.length_replicate, Nat.mul_succ, Nat.add_comm]
    exact Nat.add_le_add (length_rleDecode_le rest) hcount

end Sys2Proof.Machine
end

section
/-! PROOFS. The statements about 41_rle.md, from the rules above. -/

namespace Sys2Proof.Machine

/-- Settles O18: the sequence of a buffer command, with the encoder as its function. -/
theorem rleEncWritesTheEncoding : Obligations.RleEncWritesTheEncoding := fun _ => exec_rleEnc_fits

/-- Settles O19: the sequence of a buffer command, with the decoder as its function. -/
theorem rleDecWritesTheDecoding : Obligations.RleDecWritesTheDecoding := fun _ => exec_rleDec_fits

/-- Settles O37: the full tokens come off the run's front, and what is left of it is one token or nothing. -/
theorem rleRunsAreSplitAt255 : Obligations.RleRunsAreSplitAt255 := by
  intro v len rest _ hrest
  have hsplit := rleEncode_fullTokens v (len / 255) (len % 255) rest
  rw [Nat.div_add_mod] at hsplit
  rw [hsplit, List.append_assoc]
  congr 1
  split
  · next hr => rw [hr]; rfl
  · next hr =>
    refine rleEncode_run (Nat.pos_of_ne_zero hr) (Nat.mod_lt len (by decide)).le fun ⟨hv, _⟩ => hrest ?_
    rw [List.head?_eq_getElem?, hv]

/-- Settles O39: the bounds hold run by run, and equality of lengths means that no byte joined a run. -/
theorem rleEncodingLengthBound : Obligations.RleEncodingLengthBound := fun inp =>
  ⟨(length_rleEncode inp).1, (length_rleEncode inp).2, length_rleEncode_eq_iff inp⟩

/-- Settles O40, by induction on the tokens. -/
theorem rleDecodingLength : Obligations.RleDecodingLength := fun inp =>
  ⟨length_rleDecode_eq_sum inp, length_rleDecode_le inp⟩

/-- Settles O41: whole tokens decode first, and what follows them may be a token of count 0 or a byte alone. -/
theorem rleDecodesTokenByToken : Obligations.RleDecodesTokenByToken := by
  intro pre rest v x hpre
  have append (ys : List Byte) : rleDecode (pre ++ ys) = rleDecode pre ++ rleDecode ys :=
    rleDecode_append ys (Nat.two_mul_div_two_of_even (Nat.even_iff.mpr hpre)).symm
  refine ⟨append rest, ?_, ?_⟩
  · rw [append, append]; rfl
  · rw [append]; exact List.append_nil _

/-- Settles O42: the second command's source is the encoding that the first one wrote, and its decoding is the first one's
source. -/
theorem rleRoundTripOnTheBlock : Obligations.RleRoundTripOnTheBlock := by
  refine ⟨fun b => ⟨rleDecode_rleEncode b, by simp [rleTrunc, (length_rleEncode b).1]⟩, ?_⟩
  rintro s t _ dst cap hs hroom ht rfl hcap hunob
  have hlen : (sourceBytes s).length = s.srcLen.toNat := sourceBytes_length s
  have hfit : (rleEncode (sourceBytes s)).length ≤ s.dstCap.toNat :=
    (length_rleEncode (sourceBytes s)).2.trans (by rwa [hlen])
  obtain rfl := Host.Outcome.next.inj ((exec_rleEnc_fits hs hfit).symm.trans ht)
  have hcount := afterCommand_outLen_toNat 0x00000002#32 0#32 0#32 hfit
  refine ⟨_, exec_rleDec_rleEncode (sourceBytes_of_output (s := s) rfl rfl hcount) hunob (hlen.trans_le hcap), ?_, ?_, rfl⟩
  · rw [← hlen]
    exact Memory.readList_writeList _ _ _
  · rw [afterCommand, hlen, BitVec.ofNat_toNat, BitVec.setWidth_eq]

end Sys2Proof.Machine
end

section
/-! PROOFS. The end of LZ.ENC and of LZ.DEC, and what a token of the LZ77 decoder appends, as rules the statements of
42_lz77.md use. -/

namespace Sys2Proof.Machine

/-! ## The end of LZ.ENC and of LZ.DEC -/

theorem exec_lzEnc_fits {s : State} (h : Unobstructed s (lzEncode (sourceBytes s)))
    (hfit : (lzEncode (sourceBytes s)).length ≤ s.dstCap.toNat) :
    exec .lzEnc s = .next (afterCommand s (lzEncode (sourceBytes s)) 0x00000002#32 0#32 0#32) := by
  rw [buffer_completes_fits (e := lzEncEffect (sourceBytes s)) (.inr (.inl rfl)) rfl h hfit, ← completionStatus_none]
  rfl

/-- The function of LZ.DEC on a stream with no corrupt token sets no error. -/
theorem lzDecEffect_code {inp : List Byte} (h : (lzDecode inp).corrupt = false) : (lzDecEffect inp).code = .none := by
  simp only [lzDecEffect, h, Bool.false_eq_true, if_false]

theorem exec_lzDec_fits {s : State} (hgood : (lzDecode (sourceBytes s)).corrupt = false)
    (h : Unobstructed s (lzDecode (sourceBytes s)).out) (hfit : (lzDecode (sourceBytes s)).out.length ≤ s.dstCap.toNat) :
    exec .lzDec s = .next (afterCommand s (lzDecode (sourceBytes s)).out
      (if s.srcLen.toNat % 4 = 0 then 0x00000002#32 else 0x0000000A#32) 0#32 0#32) := by
  rw [buffer_completes_fits (e := lzDecEffect (sourceBytes s)) (.inr (.inr (.inr (.inr rfl)))) rfl h hfit,
    lzDecEffect_code hgood, ← ite_not, ← completionStatus_none_decide, ← sourceBytes_length]
  rfl

/-! ## LZ.DEC on the output of LZ.ENC (42_lz77.md R158) -/

/-- LZ.DEC on an encoding writes what was encoded, with no trailing byte. -/
theorem exec_lzDec_lzEncode {s : State} {b : List Byte} (hsrc : sourceBytes s = lzEncode b) (h : Unobstructed s b)
    (hfit : b.length ≤ s.dstCap.toNat) : exec .lzDec s = .next (afterCommand s b 0x00000002#32 0#32 0#32) := by
  have hdec : lzDecode (sourceBytes s) = { out := b, corrupt := false } := by rw [hsrc, lzDecode_lzEncode]
  have hwhole : s.srcLen.toNat % 4 = 0 := by rw [← sourceBytes_length, hsrc, (length_lzEncode b).1]
  have hend := exec_lzDec_fits (s := s)
  rw [hdec, if_pos hwhole] at hend
  exact hend rfl h hfit

/-- A command that wrote the source of `s` leaves those bytes at its destination, and their number in OUT_LEN. -/
theorem afterCommand_sourceBytes (s u : State) (status result sample : Word) :
    (afterCommand u (sourceBytes s) status result sample).mem.readList u.dstAddr.toNat s.srcLen.toNat = sourceBytes s ∧
      (afterCommand u (sourceBytes s) status result sample).outLen = s.srcLen := by
  constructor
  · rw [← sourceBytes_length s]
    exact Memory.readList_writeList _ _ _
  · rw [afterCommand, sourceBytes_length, BitVec.ofNat_toNat, BitVec.setWidth_eq]

/-! ## What a token appends (42_lz77.md R150) -/

/-- A back-reference is corrupt, or copies from its offset before the end; its fourth byte takes no part
(42_lz77.md R154, R156). -/
theorem lzDecodeFrom_backrefBytes {hi lo len : Byte} (out rest : List Byte) (lit : Byte)
    (h : ¬ (tokenOffset hi lo = 0 ∧ len = 0x00#8)) :
    lzDecodeFrom out (hi :: lo :: len :: lit :: rest) =
      if out.length < tokenOffset hi lo then { out := out, corrupt := true }
      else lzDecodeFrom (copyBytes (out.length - tokenOffset hi lo) len.toNat 0 out) rest := by
  have hback : ¬ (tokenOffset hi lo = 0 ∧ len.toNat = 0) := fun ⟨hoff, hlen⟩ => h ⟨hoff, BitVec.eq_of_toNat_eq hlen⟩
  rw [lzDecodeFrom, if_neg hback]

/-- A copy at offset 0 or of length 0 appends nothing (42_lz77.md R154). -/
theorem copyBytes_nothing {offset left : Nat} (out : List Byte) (h : offset = 0 ∨ left = 0) :
    copyBytes (out.length - offset) left 0 out = out := by
  rcases h with rfl | rfl
  · exact copyBytes_skips _ _ _ _ (Nat.le_refl _)
  · rfl

/-- A copy appends at most its length (42_lz77.md R154). -/
theorem length_copyBytes_le (start left j : Nat) (out : List Byte) :
    (copyBytes start left j out).length ≤ out.length + left := by
  induction left generalizing j out with
  | zero => exact Nat.le_refl _
  | succ left ih =>
    rw [copyBytes]
    split
    · next b _ =>
      have happ := ih (j + 1) (out ++ [b])
      rw [List.length_append, List.length_singleton] at happ
      omega
    · have hskip := ih (j + 1) out
      omega

/-- A token in front is one whole token more. -/
theorem quarter_length_token (hi lo len lit : Byte) (rest : List Byte) :
    (hi :: lo :: len :: lit :: rest).length / 4 = rest.length / 4 + 1 :=
  Nat.add_div_right rest.length (Nat.succ_pos 3)

/-- Each whole token appends at most 255 bytes (42_lz77.md R159). -/
theorem length_lzDecodeFrom_le (out inp : List Byte) :
    (lzDecodeFrom out inp).out.length ≤ out.length + 255 * (inp.length / 4) := by
  fun_induction lzDecodeFrom out inp with
  | case1 out hi lo len lit rest hliteral ih =>
    rw [List.length_append, List.length_singleton] at ih
    rw [quarter_length_token]
    omega
  | case2 out hi lo len lit rest hback hfar => exact Nat.le_add_right _ _
  | case3 out hi lo len lit rest hback hnear ih =>
    have hcopy := length_copyBytes_le (out.length - tokenOffset hi lo) len.toNat 0 out
    have hlen : len.toNat ≤ 255 := Nat.le_of_lt_succ len.isLt
    rw [quarter_length_token]
    omega
  | case4 out bs hshort => exact Nat.le_add_right _ _

end Sys2Proof.Machine
end

section
/-! PROOFS. The statements about 42_lz77.md, from the rules above. -/

namespace Sys2Proof.Machine

/-- Settles O49: the second command's source is the encoding that the first one wrote, and its decoding is the first one's
source. -/
theorem lzRoundTripOnTheBlock : Obligations.LzRoundTripOnTheBlock := by
  refine ⟨fun b => ⟨lzDecode_lzEncode b, by simp [lzTrunc, (length_lzEncode b).1]⟩, ?_⟩
  rintro s t _ dst cap hs hroom ht rfl hcap hunob
  have hlen : (sourceBytes s).length = s.srcLen.toNat := sourceBytes_length s
  have hfit : (lzEncode (sourceBytes s)).length ≤ s.dstCap.toNat := by
    have hbound := (length_lzEncode (sourceBytes s)).2
    omega
  obtain rfl := Host.Outcome.next.inj ((exec_lzEnc_fits hs hfit).symm.trans ht)
  have hcount := afterCommand_outLen_toNat 0x00000002#32 0#32 0#32 hfit
  have hsource := afterCommand_sourceBytes s
  exact ⟨_, exec_lzDec_lzEncode (sourceBytes_of_output (s := s) rfl rfl hcount) hunob (hlen.trans_le hcap),
    (hsource _ _ _ _).1, (hsource _ _ _ _).2, rfl⟩

/-- Settles O20: the sequence of a buffer command, with the encoder as its function. -/
theorem lzEncWritesTheEncoding : Obligations.LzEncWritesTheEncoding := fun _ => exec_lzEnc_fits

/-- Settles O21: the sequence of a buffer command, with the decoder as its function. -/
theorem lzDecWritesTheDecoding : Obligations.LzDecWritesTheDecoding := fun _ => exec_lzDec_fits

/-- Settles O43: the bounds, the agreement and the end of the match loop, with the bounds as differences. -/
theorem matchLengthIsTheLongestAgreement : Obligations.MatchLengthIsTheLongestAgreement := by
  rintro inp pos i _ hpos hi rfl
  obtain ⟨hlook, hinp, hdist, hagree, hend⟩ := matchLen_spec inp hpos.le hi.le
  refine ⟨hlook, by omega, by omega, hagree, ?_⟩
  rcases hend with h | h | h | h
  · exact .inl h
  · exact .inr (.inl (by omega))
  · exact .inr (.inr (.inl (by omega)))
  · exact .inr (.inr (.inr h))

/-- Settles O44: either no candidate matches, or the best one is kept with its offset. -/
theorem bestMatchIsFirstOfTheLongest : Obligations.BestMatchIsFirstOfTheLongest := by
  intro inp pos b hb
  have hbest := bestMatch_spec inp pos
  rw [← hb, show windowSize = 4096 from rfl] at hbest
  rcases hbest with ⟨hlen, hoff, hnone⟩ | ⟨hlen, hlo, hhi, hoff, hreached, hgreatest, hfirst⟩
  · exact ⟨fun i h1 h2 => (hnone i h1 h2).trans_le (Nat.zero_le _), fun _ => hoff, fun h => by omega⟩
  · exact ⟨hgreatest, fun h => by omega, fun _ => ⟨by omega, by omega, hoff, hreached, hfirst⟩⟩

/-- Settles O46: a copy from inside the output finds each byte it reads, and one from its end finds none. -/
theorem backReferenceCopyRepeatsThePattern : Obligations.BackReferenceCopyRepeatsThePattern := fun out _ len =>
  ⟨fun hpos hin => copyBytes_spec hpos (Nat.sub_add_cancel hin), copyBytes_skips out.length len 0 out (Nat.le_refl _)⟩

/-- Settles O47: whole tokens decode first, and then the token after them as the decoder reads it. -/
theorem lzDecodesTokenByToken : Obligations.LzDecodesTokenByToken := by
  intro pre rest out hi lo len lit lit' offset hpre hout hoffset
  obtain rfl : offset = tokenOffset hi lo := hoffset
  have append (ys : List Byte) : lzDecode (pre ++ ys) = lzDecodeFrom out ys := lzDecode_append hpre hout
  have copies (hin : tokenOffset hi lo ≤ out.length) (hback : ¬ (tokenOffset hi lo = 0 ∧ len = 0x00#8)) :
      lzDecode (pre ++ hi :: lo :: len :: lit :: rest) =
        lzDecodeFrom (copyBytes (out.length - tokenOffset hi lo) len.toNat 0 out) rest := by
    rw [append, lzDecodeFrom_backrefBytes out rest lit hback, if_neg (Nat.not_lt.mpr hin)]
  refine ⟨?_, fun hback => ?_, copies, fun hin hback hnothing => ?_⟩
  · rw [append]
    exact lzDecodeFrom_literal out rest lit
  · rw [append, append, lzDecodeFrom_backrefBytes out rest lit hback, lzDecodeFrom_backrefBytes out rest lit' hback]
  · rw [copies hin hback, copyBytes_nothing out (hnothing.imp_right (congrArg BitVec.toNat)), append]

/-- Settles O48, token by token from the empty output. -/
theorem lzDecodingLengthBound : Obligations.LzDecodingLengthBound := fun inp =>
  (length_lzDecodeFrom_le [] inp).trans_eq (Nat.zero_add _)

end Sys2Proof.Machine
end

section
/-! PROOFS. The classifier's sample, counts and thresholds, and the end of the selector's commands, as rules the statements of
43_selector.md use. -/

namespace Sys2Proof.Machine

/-! ## The sample (43_selector.md R170 to R172) -/

theorem isText_iff (b : Byte) :
    isText b = true ↔
      b = 0x09#8 ∨ b = 0x0A#8 ∨ b = 0x0C#8 ∨ b = 0x0D#8 ∨ (0x20 ≤ b.toNat ∧ b.toNat ≤ 0x7E) := by
  simp only [isText, Bool.or_eq_true, beq_iff_eq, Bool.and_eq_true, decide_eq_true_eq, or_assoc]

/-- Bytes past a full sample are not sampled. -/
theorem sampleOf_append {inp : List Byte} (rest : List Byte) (h : sampleCap ≤ inp.length) :
    sampleOf (inp ++ rest) = sampleOf inp := List.take_append_of_le_length h

theorem textCount_congr {inp inp' : List Byte} (h : sampleOf inp = sampleOf inp') : textCount inp = textCount inp' :=
  congrArg (List.countP isText) h

theorem classify_congr {inp inp' : List Byte} (h : sampleOf inp = sampleOf inp') : classify inp = classify inp' :=
  congrArg₂ classOf (textCount_congr h) (congrArg List.length h)

theorem sampledCount_eq_min_length (inp : List Byte) : sampledCount inp = min inp.length 1024 :=
  (sampledCount_eq inp).trans (Nat.min_comm _ _)

/-- SAMPLE of an input, as a number: the sample is no longer than 1024 bytes, so that its counts fit (43_selector.md R176). -/
theorem sampleWord_counts (inp : List Byte) :
    sampleWord (textCount inp) (sampledCount inp) = BitVec.ofNat 32 (textCount inp * 65536 + min inp.length 1024) := by
  have hm : sampledCount inp ≤ 1024 := sampledCount_le inp
  rw [sampleWord_eq_ofNat ((textCount_le inp).trans hm) hm, sampledCount_eq_min_length]

/-! ## The thresholds (43_selector.md R173, R174) -/

theorem classOf_zero (t : Nat) : classOf t 0 = .binary := rfl

theorem classOf_eq_text_iff {t m : Nat} (hm : 1 ≤ m) : classOf t m = .text ↔ 19 * m < 20 * t := by
  rw [classOf, if_neg (Nat.ne_of_gt hm), aboveTextThreshold, belowBinaryThreshold]
  simp only [decide_eq_true_eq]
  split
  · next h => simp [h]
  · next h => split <;> simp [h]

/-- A ratio below the binary threshold is not above the text threshold, so the order of the two tests does not matter. -/
theorem classOf_eq_binary_iff {t m : Nat} (hm : 1 ≤ m) : classOf t m = .binary ↔ 20 * t < m := by
  rw [classOf, if_neg (Nat.ne_of_gt hm), aboveTextThreshold, belowBinaryThreshold]
  simp only [decide_eq_true_eq]
  split
  · next h => simp only [reduceCtorEq, false_iff]; omega
  · split
    · next h => simp [h]
    · next h => simp [h]

/-- Mixed is what neither threshold takes. -/
theorem classOf_eq_mixed_iff {t m : Nat} (hm : 1 ≤ m) :
    classOf t m = .mixed ↔ ¬ 20 * t < m ∧ ¬ 19 * m < 20 * t := by
  rw [← classOf_eq_binary_iff hm, ← classOf_eq_text_iff hm]
  cases classOf t m <;> decide

theorem textThreshold_lt_ratio_iff {t m : Nat} (hm : 1 ≤ m) : (95 : ℚ) / 100 < (t : ℚ) / m ↔ 19 * m < 20 * t := by
  have hcross : (95 : ℚ) / 100 < (t : ℚ) / m ↔ 95 * m < t * 100 := by
    rw [div_lt_div_iff₀ (by norm_num) (by exact_mod_cast hm)]
    norm_cast
  rw [hcross]
  omega

theorem ratio_lt_binaryThreshold_iff {t m : Nat} (hm : 1 ≤ m) : (t : ℚ) / m < (5 : ℚ) / 100 ↔ 20 * t < m := by
  have hcross : (t : ℚ) / m < (5 : ℚ) / 100 ↔ t * 100 < 5 * m := by
    rw [div_lt_div_iff₀ (by exact_mod_cast hm) (by norm_num)]
    norm_cast
  rw [hcross]
  omega

/-! ## CLASSIFY and SUGGEST (43_selector.md R176, R178) -/

/-- Without a destination there is nothing to overlap with. -/
theorem rangesPass_noDestination {r : Region} (h : r.base + r.n ≤ addressLimit) :
    RangesPass { src := r, dst := noRegion } := ⟨h, Nat.zero_le _, fun ⟨_, hn, _⟩ => absurd hn (Nat.lt_irrefl 0)⟩

/-- A command without output whose checks pass sets the result registers and STATUS and leaves all else (40_dispatch.md R108). -/
theorem exec_completes_empty {i : Instr} {s : State} {r p : Word} (hw : i.wellFormed s.clsPresent = true)
    (hr : RangesPass (commandRanges s i)) (hs : Backed s.platform (commandRanges s i).src)
    (he : effectOf s.clsPresent i (bytesAt s (commandRanges s i).src) =
      { full := [], code := .none, trunc := false, result := r, sample := p }) :
    exec i s = .next { s with outLen := 0#32, status := 0x00000002#32, result := r, sample := p } := by
  have hnothing : (outputOf (commandRanges s i)
      (effectOf s.clsPresent i (bytesAt s (commandRanges s i).src))).length = 0 := by rw [he]; simp [outputOf]
  rw [exec_legal hw, runCommand_completes hr hs fun a hlo hhi => by omega, he, endState_nil rfl, ← completionStatus_none]
  rfl

theorem exec_classify {s : State} (hcls : s.clsPresent = true)
    (hrange : s.srcAddr.toNat + min s.srcLen.toNat 1024 ≤ 4294967296) (hs : Backed s.platform (sampleRegion s)) :
    exec .classify s = .next { s with
      outLen := 0#32
      status := 0x00000002#32
      result := classResult (classify (bytesAt s (sampleRegion s)))
      sample := BitVec.ofNat 32 (textCount (bytesAt s (sampleRegion s)) * 65536 + min s.srcLen.toNat 1024) } := by
  have hlen : min (bytesAt s (sampleRegion s)).length 1024 = min s.srcLen.toNat 1024 := by
    rw [bytesAt_length]
    exact Nat.min_eq_left (Nat.min_le_right _ _)
  rw [← hlen, ← sampleWord_counts]
  exact exec_completes_empty (by rw [hcls]; rfl) (rangesPass_noDestination hrange) hs rfl

/-- The SUGGEST command of a class (30_encoding.md R83). -/
def suggestCommand : Class → Instr
  | .text => .suggestText
  | .binary => .suggestBinary
  | .mixed => .suggestMixed

theorem suggestCommand_effect (clsPresent : Bool) (c : Class) (inp : List Byte) :
    effectOf clsPresent (suggestCommand c) inp = suggestEffect c := by cases c <;> rfl

theorem suggestCommand_ranges (s : State) (c : Class) : commandRanges s (suggestCommand c) = noRanges := by
  cases c <;> rfl

theorem exec_suggestCommand {s : State} (hcls : s.clsPresent = true) (c : Class) :
    exec (suggestCommand c) s = .next { s with
      outLen := 0#32, status := 0x00000002#32, result := algResult (suggest c), sample := 0#32 } := by
  refine exec_completes_empty (by rw [hcls]; rfl) ?_ ?_ (suggestCommand_effect _ c _) <;> rw [suggestCommand_ranges]
  · exact rangesPass_noDestination (Nat.zero_le _)
  · exact fun a _ ha => absurd ha (Nat.not_lt_zero a)

/-! ## AUTO.ENC (43_selector.md R179) -/

/-- AUTO.ENC with an encoding that fits writes what its function gives. -/
theorem exec_autoEnc_fits {s : State} {out : List Byte} {r p : Word}
    (he : autoEffect s.clsPresent (sourceBytes s) =
      { full := out, code := .none, trunc := false, result := r, sample := p })
    (h : Unobstructed s out) (hfit : out.length ≤ s.dstCap.toNat) :
    exec .autoEnc s = .next (afterCommand s out 0x00000002#32 r p) := by
  rw [buffer_completes_fits (.inr (.inr (.inl rfl))) he h hfit, completionStatus_none]

theorem autoEffect_selector (inp : List Byte) :
    autoEffect true inp =
      { full := encodeWith (suggest (classify inp)) inp
        code := .none
        trunc := false
        result := autoResult (suggest (classify inp)) (classify inp)
        sample := BitVec.ofNat 32 (textCount inp * 65536 + min inp.length 1024) } := by
  rw [← sampleWord_counts]
  rfl

theorem autoEffect_noSelector (inp : List Byte) :
    autoEffect false inp =
      { full := lzEncode inp, code := .none, trunc := false, result := 0x00000050#32, sample := 0#32 } := by
  rw [← algResult_lz]
  rfl

/-! ## Without the selector (43_selector.md R180) -/

theorem exec_needsSelector {i : Instr} {s : State} (hi : i.needsSelector = true) (hcls : s.clsPresent = false) :
    exec i s = .next (afterEarlyError s 0x00000106#32) := by
  rw [exec_illegal (by rw [Instr.wellFormed, hcls, hi]; rfl), illegalCommand, afterEarlyError_illegalCmd]

end Sys2Proof.Machine
end

section
/-! PROOFS. The statements about 43_selector.md, from the rules above. -/

namespace Sys2Proof.Machine

/-- Settles O22: the command has no output, and its function gives the class and the counts of the sample. -/
theorem classifyReportsClassAndCounts : Obligations.ClassifyReportsClassAndCounts := by
  intro s hcls hrange hs
  rw [exec_classify hcls hrange hs]
  cases classify (bytesAt s (sampleRegion s)) with
  | text => rw [classResult_text]
  | binary => rw [classResult_binary]
  | mixed => rw [classResult_mixed]

/-- Settles O24: the sequence of a buffer command, with the encoding and RESULT that go with the source's class. -/
theorem autoEncResolvesAndEncodes : Obligations.AutoEncResolvesAndEncodes := by
  intro s out hcls hout hunob hfit
  have heffect := autoEffect_selector (sourceBytes s)
  rw [sourceBytes_length, ← hcls] at heffect
  cases hclass : classify (sourceBytes s) <;> rw [hclass] at hout heffect <;> subst hout
  case text => rw [← autoResult_text]; exact exec_autoEnc_fits heffect hunob hfit
  case binary => rw [← autoResult_binary]; exact exec_autoEnc_fits heffect hunob hfit
  case mixed => rw [← autoResult_mixed]; exact exec_autoEnc_fits heffect hunob hfit

/-- Settles O25: the gate stops four of the commands, and AUTO.ENC's function takes the LZ77 encoder. -/
theorem buildWithoutSelector : Obligations.BuildWithoutSelector := by
  intro s hcls
  refine ⟨exec_needsSelector rfl hcls, exec_needsSelector rfl hcls, exec_needsSelector rfl hcls,
    exec_needsSelector rfl hcls, exec_autoEnc_fits ?_⟩
  rw [hcls, autoEffect_noSelector]

/-- Settles O53: the two integer tests are the rational ones with the denominators multiplied out. -/
theorem classFollowsTheExactThresholds : Obligations.ClassFollowsTheExactThresholds := by
  rintro inp t m rfl rfl
  refine ⟨fun hm => ?_, fun hm => ⟨?_, ?_, ?_⟩⟩
  · rw [classify, hm, classOf_zero]
  · rw [textThreshold_lt_ratio_iff hm]
    exact classOf_eq_text_iff hm
  · rw [ratio_lt_binaryThreshold_iff hm]
    exact classOf_eq_binary_iff hm
  · rw [← not_lt, ← not_lt, ratio_lt_binaryThreshold_iff hm, textThreshold_lt_ratio_iff hm]
    exact classOf_eq_mixed_iff hm

/-- Settles O54: class and counts are those of the first 1024 bytes at most. -/
theorem classifierCountsTheSample : Obligations.ClassifierCountsTheSample := by
  refine ⟨isText_iff, fun inp rest => ⟨sampledCount_eq_min_length inp, textCount_le inp, List.countP_eq_length_filter,
    fun hfull => ?_⟩⟩
  have hsample := sampleOf_append rest hfull
  exact ⟨classify_congr hsample, textCount_congr hsample⟩

/-- Settles O23: the command of each class has neither operands nor output. -/
theorem suggestReportsTheAlgorithm : Obligations.SuggestReportsTheAlgorithm := by
  intro s hcls
  have hend := exec_suggestCommand hcls
  exact ⟨hend .text, hend .binary, hend .mixed⟩

end Sys2Proof.Machine
end

section
/-! PROOFS. The words that are no command, the ends of the erring commands, and a step of one block among several, as rules the
statements of 60_exceptions.md use. -/

namespace Sys2Proof

/-! ## Words outside the cases of R202 -/

theorem bitVec2_cases (x : BitVec 2) : x = 0#2 ∨ x = 1#2 ∨ x = 2#2 ∨ x = 3#2 := by
  revert x
  decide

theorem decodeCompress_ok {alg : BitVec 2} (h : alg ≠ 3#2) : ∃ i, decodeCompress alg 0#2 = .ok i := by
  rcases bitVec2_cases alg with rfl | rfl | rfl | rfl
  · exact ⟨.rleEnc, rfl⟩
  · exact ⟨.lzEnc, rfl⟩
  · exact ⟨.autoEnc, rfl⟩
  · exact absurd rfl h

theorem decodeDecompress_ok {alg : BitVec 2} (h2 : alg ≠ 2#2) (h3 : alg ≠ 3#2) :
    ∃ i, decodeDecompress alg 0#2 = .ok i := by
  rcases bitVec2_cases alg with rfl | rfl | rfl | rfl
  · exact ⟨.rleDec, rfl⟩
  · exact ⟨.lzDec, rfl⟩
  · exact absurd rfl h2
  · exact absurd rfl h3

theorem decodeSuggest_ok {cls : BitVec 2} (h : cls ≠ 3#2) : ∃ i, decodeSuggest 0#2 cls = .ok i := by
  rcases bitVec2_cases cls with rfl | rfl | rfl | rfl
  · exact ⟨.suggestText, rfl⟩
  · exact ⟨.suggestBinary, rfl⟩
  · exact ⟨.suggestMixed, rfl⟩
  · exact absurd rfl h

end Sys2Proof

namespace Sys2Proof.Machine

/-- A word under none of the cases decodes: its OP is one of the four, and its ALG and CLS are in that OP's rows of the map
(30_encoding.md R85). -/
theorem decode_ok_of_not_illegalWord {clsPresent : Bool} {w : Word} (h : ¬ IllegalWord clsPresent w) :
    ∃ i, decode w = .ok i := by
  simp only [IllegalWord, not_or] at h
  obtain ⟨hrsvd, hop, halg3, halg2, halg0, hcls0, hcls3, -⟩ := h
  have hcls (hne : opField w ≠ 4#4) : clsField w = 0#2 := by_contra fun hc => hcls0 ⟨hc, hne⟩
  have halg (h34 : opField w = 3#4 ∨ opField w = 4#4) : algField w = 0#2 := by_contra fun ha => halg0 ⟨ha, h34⟩
  have hop4 : opField w = 1#4 ∨ opField w = 2#4 ∨ opField w = 3#4 ∨ opField w = 4#4 := by
    by_contra hnone
    simp only [not_or] at hnone
    exact hop hnone
  rcases hop4 with h1 | h2 | h3 | h4
  · simpa [decode, hrsvd, h1, hcls] using decodeCompress_ok halg3
  · simpa [decode, hrsvd, h2, hcls] using decodeDecompress_ok (fun ha => halg2 ⟨ha, h2⟩) halg3
  · exact ⟨.classify, by simp [decode, hrsvd, h3, hcls, halg, decodeClassify]⟩
  · simpa [decode, hrsvd, h4, halg] using decodeSuggest_ok fun hc => hcls3 ⟨hc, h4⟩

/-- A word under none of the cases is the word of a command that the build has. -/
theorem decode_wellFormed_of_not_illegalWord {clsPresent : Bool} {w : Word} (h : ¬ IllegalWord clsPresent w) :
    ∃ i, decode w = .ok i ∧ i.wellFormed clsPresent = true := by
  obtain ⟨i, hi⟩ := decode_ok_of_not_illegalWord h
  rw [(decode_ok_iff w i).mp hi, illegalWord_encode_iff, Bool.not_eq_false] at h
  exact ⟨i, hi, h⟩

/-! ## RANGE and OVERLAP: errors before any access (40_dispatch.md R104, R105, R109) -/

theorem raiseEarly_eq_afterEarlyError (code : ErrCode) (s : State) :
    raiseEarly code s = afterEarlyError s (completionStatus code false) := rfl

theorem exec_rangeFails {i : Instr} {s : State} (hw : i.wellFormed s.clsPresent = true)
    (h : rangeFails (commandRanges s i) = true) : exec i s = .next (afterEarlyError s 0x00000206#32) := by
  rw [exec_legal hw, runCommand, if_pos h, raiseEarly_eq_afterEarlyError, completionStatus_range]

theorem exec_overlapFails {i : Instr} {s : State} (hw : i.wellFormed s.clsPresent = true)
    (hr : rangeFails (commandRanges s i) = false) (h : overlapFails (commandRanges s i) = true) :
    exec i s = .next (afterEarlyError s 0x00000306#32) := by
  rw [exec_legal hw, runCommand, hr, if_neg Bool.false_ne_true, if_pos h, raiseEarly_eq_afterEarlyError,
    completionStatus_overlap]

/-! ## DST_OVERFLOW (60_exceptions.md R206) -/

/-- The end of a buffer command with more output than DST_CAP. -/
theorem endState_bufferRanges_overflows {e : Effect} {s : State} (h : s.dstCap.toNat < e.full.length) :
    endState (bufferRanges s) e s =
      afterCommand s (e.full.take s.dstCap.toNat) 0x00000506#32 e.result e.sample := by
  have hend : endState (bufferRanges s) e s = _ := endState_overflows h
  rw [hend, ← completionStatus_dstOverflow false, afterCommand, List.length_take_of_le h.le]
  rfl

/-- OUT_LEN of an output cut at DST_CAP is DST_CAP. -/
theorem afterCommand_take_outLen {s : State} {out : List Byte} (status result sample : Word)
    (h : s.dstCap.toNat ≤ out.length) :
    (afterCommand s (out.take s.dstCap.toNat) status result sample).outLen = s.dstCap := by
  rw [afterCommand, List.length_take_of_le h, BitVec.ofNat_toNat, BitVec.setWidth_eq]

/-- Of the buffer commands only AUTO.ENC sets RESULT or SAMPLE (60_exceptions.md R201). -/
theorem buffer_result_sample_zero {i : Instr} (hi : IsBufferCommand i) (hauto : i ≠ .autoEnc) (clsPresent : Bool)
    (inp : List Byte) :
    (effectOf clsPresent i inp).result = 0#32 ∧ (effectOf clsPresent i inp).sample = 0#32 := by
  rcases hi with rfl | rfl | rfl | rfl | rfl
  case inr.inr.inl => exact absurd rfl hauto
  all_goals exact ⟨rfl, rfl⟩

/-! ## CORRUPT_STREAM (60_exceptions.md R205) -/

/-- A token whose offset exceeds the output is a back-reference, and the decoder stops at it (42_lz77.md R153). -/
theorem lzDecodeFrom_badOffset {out : List Byte} {hi lo : Byte} (len lit : Byte) (rest : List Byte)
    (h : out.length < tokenOffset hi lo) :
    lzDecodeFrom out (hi :: lo :: len :: lit :: rest) = { out := out, corrupt := true } := by
  have hback : ¬ (tokenOffset hi lo = 0 ∧ len = 0x00#8) := fun hz => absurd (hz.1 ▸ h) (Nat.not_lt_zero _)
  rw [lzDecodeFrom_backrefBytes out rest lit hback, if_pos h]

/-- LZ.DEC on a corrupt stream whose output fits writes that output and ends with CORRUPT_STREAM. -/
theorem exec_lzDec_corrupt {s : State} {out : List Byte}
    (hdec : lzDecode (sourceBytes s) = { out := out, corrupt := true }) (h : Unobstructed s out)
    (hfit : out.length ≤ s.dstCap.toNat) :
    exec .lzDec s = .next (afterCommand s out 0x00000406#32 0#32 0#32) := by
  have heffect : effectOf s.clsPresent .lzDec (sourceBytes s) =
      { full := out, code := .corruptStream, trunc := lzTrunc (sourceBytes s), result := 0#32, sample := 0#32 } := by
    simp only [effectOf, lzDecEffect, hdec, if_true]
  rw [buffer_completes_fits (.inr (.inr (.inr (.inr rfl)))) heffect h hfit, completionStatus_corruptStream]

theorem effectOf_corruptStream {clsPresent : Bool} {i : Instr} {inp : List Byte}
    (h : (effectOf clsPresent i inp).code = .corruptStream) : i = .lzDec := by
  cases i with
  | lzDec => rfl
  | autoEnc => cases clsPresent <;> cases h
  | _ => cases h

theorem bits_eq_four_iff (c : ErrCode) : c.bits = 4#4 ↔ c = .corruptStream := by cases c <;> decide

/-- A command that reaches its end reports CORRUPT_STREAM only if its function did. -/
theorem endState_corruptStream {r : Ranges} {e : Effect} {s : State}
    (h : statusErrCode (endState r e s).status = 4#4) : e.code = .corruptStream := by
  rcases endState_status_cases r e s with hs | hs <;>
    rw [hs, statusErrCode_completionStatus, bits_eq_four_iff] at h
  · cases h
  · exact h

theorem raiseEarly_not_corruptStream {code : ErrCode} (s : State) (h : IsEarlyCode code) :
    statusErrCode (raiseEarly code s).status ≠ 4#4 := by
  rw [raiseEarly_status, statusErrCode_completionStatus, ne_eq, bits_eq_four_iff]
  rcases h with rfl | rfl | rfl <;> decide

/-! ## One block among several (60_exceptions.md R216) -/

/-- A step of the system is a step of the block that moves, on the shared memory (log entry 15). -/
theorem System.step_next {sys sys' : System} {k : Nat} {b : State} (hb : sys.blocks[k]? = some b)
    (h : sys.step k = .next sys') : ∃ t, Machine.step (sys.view b) = .next t ∧ sys' = sys.afterMove k t := by
  simp only [System.step, hb] at h
  split at h
  · cases h
  · split at h
    · cases h
    · split at h
      · next t ht => exact ⟨t, ht, (Host.Outcome.next.inj h).symm⟩
      · cases h
      · cases h

theorem System.afterMove_other (sys : System) {j k : Nat} (t : State) (h : j ≠ k) :
    (sys.afterMove k t).blocks[j]? = sys.blocks[j]? := List.getElem?_set_ne h.symm

theorem System.afterMove_same {sys : System} {k : Nat} {b : State} (t : State) (hb : sys.blocks[k]? = some b) :
    (sys.afterMove k t).blocks[k]? = some { t with mem := [], draws := 0 } :=
  List.getElem?_set_self (List.getElem?_eq_some_iff.mp hb).1

end Sys2Proof.Machine
end

section
/-! PROOFS. The statements about 60_exceptions.md, from the rules above. -/

namespace Sys2Proof.Machine

/-- Settles O4: a word of one of the cases is reported, and any other is the word of a command that the build has. -/
theorem illegalWordsCompleteWithIllegalCmd : Obligations.IllegalWordsCompleteWithIllegalCmd := by
  refine fun s => ⟨engineStep_illegalWord, fun h => ?_⟩
  obtain ⟨i, hi, hw⟩ := decode_wellFormed_of_not_illegalWord h
  exact ⟨i, hi, hw, engineStep_ok hi⟩

/-- Settles O26: the range check comes first, on the command's own ranges. -/
theorem rangeErrorBeforeAnyAccess : Obligations.RangeErrorBeforeAnyAccess := by
  refine fun s => ⟨fun i hi h => exec_rangeFails (buffer_wellFormed hi _) ?_, fun hcls h =>
    exec_rangeFails (by rw [hcls]; rfl) ((rangeFails_iff _).mpr (.inl h))⟩
  rw [buffer_ranges hi]
  exact (rangeFails_iff _).mpr h

/-- Settles O27: with the range check passed the overlap check comes next. -/
theorem overlapErrorBeforeAnyAccess : Obligations.OverlapErrorBeforeAnyAccess := by
  intro s i hi hsrc hdst hsrcPos hdstPos hbelow habove
  refine exec_overlapFails (buffer_wellFormed hi _) ?_ ?_ <;> rw [buffer_ranges hi]
  · rw [← Bool.not_eq_true, rangeFails_iff]
    exact not_or.mpr ⟨hsrc.not_gt, hdst.not_gt⟩
  · exact (Region.meets_iff _ _).mpr ⟨hsrcPos, hdstPos, hbelow, habove⟩

/-- Settles O28: the command reaches its end, with its output cut at DST_CAP and what its function set kept. -/
theorem overflowWritesExactlyTheCapacity : Obligations.OverflowWritesExactlyTheCapacity := by
  rintro s i _ hi rfl hunob hover
  refine ⟨(effectOf s.clsPresent i (sourceBytes s)).result, (effectOf s.clsPresent i (sourceBytes s)).sample, ?_,
    afterCommand_take_outLen _ _ _ hover.le, fun hauto => buffer_result_sample_zero hi hauto _ _, ?_⟩
  · rw [buffer_completes hi hunob, ← effectOf_full, endState_bufferRanges_overflows (by rwa [effectOf_full])]
  · rintro rfl
    exact ⟨rfl, rfl⟩

/-- Settles O29: the whole tokens decode, the next one stops the decoder, and no other function or check gives this code. -/
theorem corruptStreamAtFirstBadOffset : Obligations.CorruptStreamAtFirstBadOffset := by
  refine ⟨fun s pre rest out hi lo len lit hsrc hpre hout hfar => exec_lzDec_corrupt ?_, fun s t i h hcode => ?_⟩
  · rw [hsrc, lzDecode_append hpre hout, lzDecodeFrom_badOffset len lit rest hfar]
  · rcases exec_next_cases h with ⟨code, hearly, rfl⟩ | rfl
    · exact absurd hcode (raiseEarly_not_corruptStream s hearly)
    · exact effectOf_corruptStream (endState_corruptStream hcode)

/-- Settles O59: the system's step is the moving block's, put back at its own index. -/
theorem instancesShareOnlyMemory : Obligations.InstancesShareOnlyMemory := by
  intro sys sys' k b hb h
  obtain ⟨t, ht, rfl⟩ := System.step_next hb h
  refine ⟨fun j hj => System.afterMove_other sys t hj, t, ht, rfl, rfl, ?_⟩
  rw [System.afterMove_same t hb]
  rfl

end Sys2Proof.Machine
end

section
/-! PROOFS. What a step does to the claims, and the accesses they refuse, as rules the statement of
70_reset_and_hazards.md uses. -/

namespace Sys2Proof.Machine

/-! ## The engine keeps the claims -/

theorem exec_keeps_claims {i : Instr} {s t : State} (h : exec i s = .next t) : t.claims = s.claims := by
  obtain ⟨-, -, -, -, -, hframe⟩ := exec_frame h
  rw [hframe]

theorem engineStep_keeps_claims {s t : State} (h : engineStep s = .next t) : t.claims = s.claims := by
  rcases engineStep_next_cases h with ⟨i, hi⟩ | rfl
  · exact exec_keeps_claims hi
  · exact raiseEarly_claims _ _

theorem engineTurn_keeps_claims {s t : State} (h : engineTurn s = .next t) : t.claims = s.claims := by
  cases hb : s.busy with
  | true => exact engineStep_keeps_claims ((engineTurn_busy hb).symm.trans h)
  | false =>
    rw [engineTurn_idle hb] at h
    cases h
    rfl

/-! ## Register accesses -/

/-- A register write ends no claim. -/
theorem mem_claims_writeMove {s : State} {q : Ranges} (r : Reg) (v : Word) (hq : q ∈ s.claims) :
    q ∈ (writeMove r v s).claims := by
  cases hb : s.busy with
  | true => rwa [writeMove_busy r v hb]
  | false =>
    rw [writeMove_idle r v hb]
    cases r with
    | cmd => exact List.mem_cons_of_mem _ hq
    | _ => exact hq

theorem claimsAfterRead_status_idle {s : State} (h : s.busy = false) : claimsAfterRead s .status = [] :=
  if_pos ⟨rfl, h⟩

/-- Only the read of STATUS while idle ends claims (20_memory.md R70). -/
theorem claimsAfterRead_other {r : Reg} {s : State} (h : s.busy = false → r ≠ .status) :
    claimsAfterRead s r = s.claims :=
  if_neg fun ⟨hr, hb⟩ => h hb hr

theorem ofOffset_eq_status {off : Nat} (h : Reg.ofOffset off = .status) : off = 0x08 := by
  unfold Reg.ofOffset at h
  split_ifs at h with _ _ hoff
  exact hoff

theorem registerMove_next_wellFormed {a : RegAccess} {s t : State} {move : Reg → State}
    (h : registerMove a s move = .next t) : a.wellFormed s.platform.regBase = true := by
  unfold registerMove at h
  split at h
  · next hwin =>
    split at h
    · next hsup => exact Bool.and_eq_true_iff.mpr ⟨hwin, hsup⟩
    · cases h
  · cases h

/-- One access alone reaches STATUS: the word at `REG_BASE + 0x08` (10_state.md R22, R40). -/
theorem wellFormed_status_access {base : Nat} {a : RegAccess} (hw : a.wellFormed base = true)
    (hr : Reg.ofOffset (a.addr - base) = .status) : a = { addr := base + 0x08, width := 4 } := by
  have hoff := ofOffset_eq_status hr
  simp only [RegAccess.wellFormed, RegAccess.inWindow, RegAccess.supported, Bool.and_eq_true, decide_eq_true_eq] at hw
  obtain ⟨⟨hlo, -⟩, hwidth, -⟩ := hw
  have haddr : a.addr = base + 0x08 := by omega
  rw [← haddr, ← hwidth]

/-- A register read other than that of STATUS while idle keeps the claims. -/
theorem registerMove_read_keeps_claims {a : RegAccess} {s t : State}
    (h : registerMove a s (fun r => readMove r s) = .next t)
    (ha : s.busy = false → a ≠ { addr := s.platform.regBase + 0x08, width := 4 }) : t.claims = s.claims := by
  rw [registerMove_next h, readMove_claims]
  exact claimsAfterRead_other fun hb hr => ha hb (wellFormed_status_access (registerMove_next_wellFormed h) hr)

/-! ## Loads and stores -/

theorem claimed_of_mem {claims : List Ranges} {r : Ranges} {a : Nat} (hr : r ∈ claims)
    (ha : r.src.has a = true ∨ r.dst.has a = true) : claimed claims a = true :=
  List.any_eq_true.mpr ⟨r, hr, Bool.or_eq_true_iff.mpr ha⟩

theorem memoryMove_claimed {a : Word} {s : State} (next : State) (h : claimed s.claims a.toNat = true) :
    memoryMove a s next = .refused .bufferRace := by
  rw [memoryMove, if_pos h]

/-- A host access to memory that answers a next state made its move. -/
theorem memoryMove_next {a : Word} {s next t : State} (h : memoryMove a s next = .next t) : t = next := by
  unfold memoryMove at h
  split at h
  · cases h
  · split at h
    · cases h; rfl
    · cases h

/-! ## The step -/

/-- A step ends claims only by a reset or by a STATUS read while idle, `wait`'s own among these
(70_reset_and_hazards.md R242). -/
theorem mem_claims_step {s t : State} {q : Ranges} (h : step s = .next t)
    (hreset : ∀ rest, s.inputs ≠ .reset :: rest)
    (hidle : s.busy = false → ∀ rest,
      s.inputs ≠ .wait :: rest ∧ s.inputs ≠ .read { addr := s.platform.regBase + 0x08, width := 4 } :: rest)
    (hq : q ∈ s.claims) : q ∈ t.claims := by
  unfold step at h
  split at h
  · rwa [engineTurn_keeps_claims h]
  · rwa [engineTurn_keeps_claims h]
  · next rest hi =>
    split at h
    · rwa [engineStep_keeps_claims h]
    · next hb => exact absurd hi (hidle (Bool.eq_false_iff.mpr hb) rest).1
  · next rest hi =>
    rw [registerMove_next h]
    exact mem_claims_writeMove (s := { s with inputs := rest }) _ _ hq
  · next a rest hi =>
    rwa [registerMove_read_keeps_claims (s := { s with inputs := rest }) h
      fun hb ha => (hidle hb rest).2 (ha ▸ hi)]
  · rwa [memoryMove_next h]
  · rwa [memoryMove_next h]
  · next rest hi => exact absurd hi (hreset rest)

end Sys2Proof.Machine
end

section
/-! PROOFS. The statement about 70_reset_and_hazards.md, from the rules above. -/

namespace Sys2Proof.Machine

/-- Settles O15: the claims grow by an accepted write, refuse accesses to their bytes, and outlast every move but the three. -/
theorem buffersAreTheEnginesUntilIdleIsRead : Obligations.BuffersAreTheEnginesUntilIdleIsRead := by
  refine ⟨fun s w rest hb hi => ⟨_, step_write_cmd_idle hb hi, rfl⟩, fun s r a v rest hr ha => ?_,
    fun s t h hreset hidle r => mem_claims_step h hreset hidle, fun i s t => exec_keeps_claims,
    fun s rest hi => ⟨_, step_read_word (by decide) (by decide) hi, fun hb => ?_, fun hb => ?_⟩⟩
  · have hclaimed := claimed_of_mem hr ha
    constructor <;> intro hi <;> simp only [step, hi] <;>
      exact memoryMove_claimed (s := { s with inputs := rest }) _ hclaimed
  · exact claimsAfterRead_status_idle (s := { s with inputs := rest }) hb
  · exact claimsAfterRead_other (s := { s with inputs := rest }) fun hidle => absurd (hb.symm.trans hidle) (by decide)

end Sys2Proof.Machine
end
